-- ==== Sys2Proof/Word.lean ====
section
/-!
DEFINITION. The words of the block: a level, a byte, a frame, the input triple of one tick, and a code word.
-/

namespace Sys2Proof

/-- A level of the line: `LOW` = 0 and `HIGH` = 1 on `line_i` and `line_o` (00_scope.md section 5, D2). -/
inductive Level where
  | low
  | high
deriving DecidableEq, Repr, Inhabited

/-- One of the five unsigned 8-bit bytes of a frame (30_encoding.md R63). -/
abbrev Byte := BitVec 8

/-- The packed 40-bit RawFrame, the first bit to arrive in bit 39 (20_memory.md R46). -/
abbrev Frame := BitVec 40

/-- What the outside supplies at one tick: the triple `(rst, start, line_i)` of 10_state.md R23,
the unit of a stimulus's encoding (30_encoding.md R73). -/
structure Inputs where
  rst   : Bool
  start : Bool
  line  : Level
deriving DecidableEq, Repr, Inhabited

/-- A code word together with the format it is read in (30_encoding.md R68, R69).
The three formats use the same numbers, so the format belongs to the word (log 3). -/
inductive CodeWord where
  /-- The command word `{rst, start}`, read at every tick (R69). -/
  | cmd (w : BitVec 2)
  /-- The phase code `phase[3:0]` (R68). -/
  | phase (w : BitVec 4)
  /-- A phase code read as the pattern `01kl` of the shared sub-operation (R68). -/
  | subop (w : BitVec 4)
deriving DecidableEq, Repr

end Sys2Proof
end

