-- ==== Sys2Proof/Config.lean ====
section
/-!
DEFINITION. What an instance of the block fixes (the parameters of 00_scope.md R9) and what the spec leaves
open: constants with no body, of which no proof can know a value.
-/

namespace Sys2Proof

/-- The parameters of 00_scope.md R9, constant from reset to reset. -/
structure Params where
  /-- `PIN_ID`: which pad the line is; visible to no rule (R9, D29). That it is a number is DESIGN CHOICE (log 2). -/
  pinId        : Nat
  /-- `F_TICK_HZ`: ticks per second, any positive rational, a whole number or not; read by no rule of the block (93 U3).
  R9 says "OPEN, positive" only: that it is rational is DESIGN CHOICE (log 2). -/
  fTickHz      : Rat
  /-- `CYCLE_BUDGET`: the largest number of samples one measurement may take. -/
  cycleBudget  : Nat
  /-- `T_SETTLE_TICKS`: ticks the line stays released before the request. -/
  tSettle      : Nat
  /-- `T_REQ_LOW_TICKS`: ticks the line is driven low. -/
  tReqLow      : Nat
  /-- `T_REQ_HIGH_TICKS`: ticks the line is driven high. -/
  tReqHigh     : Nat
deriving DecidableEq, Repr

namespace Config

/-- `PIN_ID`, an elaboration-time constant (D29, log 2). -/
opaque pinId : Nat

/-- The numerator of `F_TICK_HZ` less one: the spec fixes only that the rate is positive (R9, log 2). -/
opaque fTickHzNumLessOne : Nat

/-- The denominator of `F_TICK_HZ` less one (R9, log 2). -/
opaque fTickHzDenLessOne : Nat

/-- `CYCLE_BUDGET` less one: the spec fixes only that it is at least 1 (R9, log 2). -/
opaque cycleBudgetLessOne : Nat

/-- `T_SETTLE_TICKS` less one: the spec fixes only that it is at least 1 (R9, log 2). -/
opaque tSettleLessOne : Nat

/-- `T_REQ_LOW_TICKS` less one: the spec fixes only that it is at least 1 (R9, log 2). -/
opaque tReqLowLessOne : Nat

/-- `T_REQ_HIGH_TICKS` less one: the spec fixes only that it is at least 1 (R9, log 2). -/
opaque tReqHighLessOne : Nat

/-- The input triple at a tick for which State lists none: any value (20_memory.md R43, 93 U11, log 1). -/
opaque freeInput : Nat → Inputs

/-- How the host's float format `FLOAT_FMT` writes a number of tenths (44_host_software.md R175, 93 U8, log 7). -/
opaque floatPattern : Int → Nat

/-- The parameters of the instance: open values, a positive rate and each length at least 1 (R9). -/
def params : Params :=
  { pinId       := pinId
    fTickHz     := mkRat (fTickHzNumLessOne + 1) (fTickHzDenLessOne + 1)
    cycleBudget := cycleBudgetLessOne + 1
    tSettle     := tSettleLessOne + 1
    tReqLow     := tReqLowLessOne + 1
    tReqHigh    := tReqHighLessOne + 1 }

end Config

/-- Bits per frame, fixed (R9). -/
abbrev nBits : Nat := 40

/-- Bytes per frame, fixed (R9). -/
abbrev nBytes : Nat := 5

/-- `MIN_INTERVAL_MS`, the host's spacing of reads (R9, 44_host_software.md R180). -/
abbrev minIntervalMs : Nat := 2000

end Sys2Proof
end

