-- ==== Sys2Proof/Syntax.lean ====
section
/-!
DEFINITION. The operations of the block, one constructor per row of spec/opcode_table.json (30_encoding.md R75).
-/

namespace Sys2Proof

/-- What a measured pulse belongs to: bit `k` of the pattern `01kl` (30_encoding.md R68). -/
inductive PulseKind where
  | acknowledge
  | bitSymbol
deriving DecidableEq, Repr

/-- The block's complete operation set: three commands, nine phase operations, one shared sub-operation (R75). -/
inductive Instr where
  /-- RESET, command word `1s`; `s` is the `start` port, ignored (R69, R230). -/
  | reset (s : Bool)
  /-- START, command word `01` (R110, R111). -/
  | start
  /-- NOP, command word `00` (R111). -/
  | nop
  /-- IDLE, phase 0 (R111). -/
  | idle
  /-- SETTLE, phase 1 (R112). -/
  | settle
  /-- REQ_LOW, phase 2 (R113). -/
  | reqLow
  /-- REQ_HIGH, phase 3 (R114). -/
  | reqHigh
  /-- MEASURE, sub-operation pattern `01kl`; `l` is the expected level (R68, R91). -/
  | measure (k : PulseKind) (l : Level)
  /-- ACK_LOW, phase 4 (R116). -/
  | ackLow
  /-- ACK_HIGH, phase 5 (R117). -/
  | ackHigh
  /-- BIT_LOW, phase 6 (R140). -/
  | bitLow
  /-- BIT_HIGH, phase 7 (R141). -/
  | bitHigh
  /-- CHECKSUM, phase 8 (R161). -/
  | checksum
deriving DecidableEq, Repr

end Sys2Proof
end

