-- ==== Sys2Proof/WellFormed.lean ====
section
/-!
DEFINITION. What makes a parameter set, a command history and an operation legal.
-/

namespace Sys2Proof

/-- Each length is an integer at least 1 and the tick rate is positive (00_scope.md R9, 70 R235 (a)). -/
abbrev Params.wf (p : Params) : Prop :=
  0 < p.fTickHz ∧ 1 ≤ p.cycleBudget ∧ 1 ≤ p.tSettle ∧ 1 ≤ p.tReqLow ∧ 1 ≤ p.tReqHigh

/-- The budget spans a pulse of `longest` samples: such a pulse does not time out (70_reset_and_hazards.md R235 (b)). -/
abbrev Params.spans (p : Params) (longest : Nat) : Prop :=
  longest ≤ p.cycleBudget - 1

/-- Every operand value of every operation is legal: `s` of RESET and `k`, `l` of MEASURE are single bits, each
value of which the encoding admits (30_encoding.md R68, R69), and no other operation has an operand (R72). -/
def Instr.wf : Instr → Bool
  | .reset _ => true
  | .start => true
  | .nop => true
  | .idle => true
  | .settle => true
  | .reqLow => true
  | .reqHigh => true
  | .measure _ _ => true
  | .ackLow => true
  | .ackHigh => true
  | .bitLow => true
  | .bitHigh => true
  | .checksum => true

/-- A code word that some operation has: every command word, the phase codes 0 to 8, the patterns `01kl`
(30_encoding.md R68 to R70). -/
def CodeWord.wf : CodeWord → Bool
  | .cmd _ => true
  | .phase w => decide (w.toNat ≤ 8)
  | .subop w => decide (4 ≤ w.toNat ∧ w.toNat ≤ 7)

end Sys2Proof
end

