-- ==== Sys2Proof/Decode.lean ====
section
/-!
DEFINITION. From a code word to the operation it names, rejecting reserved words by name, and the encoder beside it.
Written from 30_encoding.md R68 to R70 and spec/opcode_table.json.
-/

namespace Sys2Proof

/-- Why a word is no operation (30_encoding.md R70). -/
inductive Reject where
  /-- Phase codes 9 to 15 are reserved. -/
  | reservedPhase (w : BitVec 4)
  /-- Not of the pattern `01kl`. -/
  | notMeasuring (w : BitVec 4)
deriving DecidableEq, Repr

/-- The value of a level as a bit: `LOW` = 0, `HIGH` = 1. -/
def Level.bit : Level → Bool
  | .low => false
  | .high => true

/-- The level a bit stands for. -/
def Level.ofBit : Bool → Level
  | false => .low
  | true => .high

/-- Bit `k` of the pattern `01kl`: 0 for the acknowledge, 1 for a bit symbol. -/
def PulseKind.bit : PulseKind → Bool
  | .acknowledge => false
  | .bitSymbol => true

/-- The kind of pulse bit `k` names. -/
def PulseKind.ofBit : Bool → PulseKind
  | false => .acknowledge
  | true => .bitSymbol

/-- The command word `{rst, start}`: `1x` RESET, `01` START, `00` NOP (30_encoding.md R69). -/
def decodeCmd (w : BitVec 2) : Instr :=
  if w.getLsbD 1 then .reset (w.getLsbD 0)
  else if w.getLsbD 0 then .start
  else .nop

/-- The phase codes 0 to 8; 9 to 15 are reserved (30_encoding.md R68, R70). -/
def decodePhase (w : BitVec 4) : Except Reject Instr :=
  match w.toNat with
  | 0 => .ok .idle
  | 1 => .ok .settle
  | 2 => .ok .reqLow
  | 3 => .ok .reqHigh
  | 4 => .ok .ackLow
  | 5 => .ok .ackHigh
  | 6 => .ok .bitLow
  | 7 => .ok .bitHigh
  | 8 => .ok .checksum
  | _ => .error (.reservedPhase w)

/-- The pattern `01kl` of the four measuring phases (30_encoding.md R68). -/
def decodeSubop (w : BitVec 4) : Except Reject Instr :=
  if !w.getLsbD 3 && w.getLsbD 2 then
    .ok (.measure (PulseKind.ofBit (w.getLsbD 1)) (Level.ofBit (w.getLsbD 0)))
  else .error (.notMeasuring w)

/-- The operation of a code word, or why there is none. -/
def decode : CodeWord → Except Reject Instr
  | .cmd w => .ok (decodeCmd w)
  | .phase w => decodePhase w
  | .subop w => decodeSubop w

/-- The command word of the two command ports, `rst` in bit 1 and `start` in bit 0 (30_encoding.md R69). -/
def cmdWord (rst start : Bool) : CodeWord :=
  .cmd (BitVec.ofBool rst ++ BitVec.ofBool start)

/-- The pattern `01kl` (30_encoding.md R68). -/
def subopWord (k : PulseKind) (l : Level) : CodeWord :=
  .subop (1#2 ++ (BitVec.ofBool k.bit ++ BitVec.ofBool l.bit))

/-- The code word of an operation (30_encoding.md R68, R69). -/
def encode : Instr → CodeWord
  | .reset s => cmdWord true s
  | .start => cmdWord false true
  | .nop => cmdWord false false
  | .idle => .phase 0#4
  | .settle => .phase 1#4
  | .reqLow => .phase 2#4
  | .reqHigh => .phase 3#4
  | .measure k l => subopWord k l
  | .ackLow => .phase 4#4
  | .ackHigh => .phase 5#4
  | .bitLow => .phase 6#4
  | .bitHigh => .phase 7#4
  | .checksum => .phase 8#4

/-- The code word a number of the opcode table stands for. The table numbers CMD words in 2 bits and PHASE words
in 4, both from 0; a length of at most 2 bits is read as a command word, any greater one as a phase word (log 3). -/
def tableWord (nbits w : Nat) : Option CodeWord :=
  if nbits ≤ 2 then
    if w < 4 then some (.cmd (BitVec.ofNat 2 w)) else none
  else
    if w < 16 then some (.phase (BitVec.ofNat 4 w)) else none

/-- The operation the decoder reads from a number of the opcode table. -/
def decodeTableWord (nbits w : Nat) : Option Instr :=
  match tableWord nbits w with
  | none => none
  | some c =>
    match decode c with
    | .ok i => some i
    | .error _ => none

end Sys2Proof
end

