-- ==== Sys2Proof/Machine/State.lean ====
section
/-!
DEFINITION. The state of the block and of its host, as plain data; the reasons a step can stop; the state after reset.
-/

namespace Sys2Proof.Machine

/-- The nine phases: the block's program counter (10_state.md R11, codes in 30_encoding.md R68).
The reserved codes 9 to 15 have no constructor, as R70 asks. -/
inductive Phase where
  | idle
  | settle
  | reqLow
  | reqHigh
  | ackLow
  | ackHigh
  | bitLow
  | bitHigh
  | checksum
deriving DecidableEq, Repr

/-- The four failures the block raises (60_exceptions.md R200). -/
inductive Failure where
  | startLowTimeout
  | startHighTimeout
  | bitTimeout
  | checksumMismatch
deriving DecidableEq, Repr

/-- The outcome of the last accepted read (10_state.md R19, 30_encoding.md R67). -/
inductive Status where
  /-- `NONE`: no read yet, or one in progress. -/
  | none
  /-- `OK`. -/
  | ok
  /-- One of the four failure codes. -/
  | failed (f : Failure)
deriving DecidableEq, Repr

/-- The result of one measurement; `Timeout` is a form of its own, never a count (10_state.md R24, R66). -/
inductive PulseMeasurement where
  | count (n : Nat)
  | timeout
deriving DecidableEq, Repr

/-- The five kinds of the source's taxonomy: the block's four and the host converter's (60_exceptions.md R200, R205). -/
inductive ErrorKind where
  | block (f : Failure)
  | outOfRange
deriving DecidableEq, Repr

/-- What a `read` call returns (44_host_software.md R178): a reading in exact tenths (R175, log 7), or a failure. -/
inductive ReadResult where
  | reading (t10 : Int) (h10 : Nat)
  | error (kind : ErrorKind)
deriving DecidableEq, Repr

/-- The host's ReadState and the result it keeps (44_host_software.md R179, R181). -/
structure ReadState where
  /-- Milliseconds of the last attempt; none is "infinitely in the past". -/
  lastAttemptMs : Option Nat
  /-- The result of the last attempt; none before the first. -/
  lastResult    : Option ReadResult
deriving DecidableEq, Repr

/-- The whole state: the block's nine elements (10_state.md R10), the parameters (00_scope.md R9), the host's
ReadState (R27), and the inputs of the coming ticks (log 1). -/
structure State where
  /-- The parameters, constant between resets (R9, 20_memory.md R53, log 2). -/
  params     : Params
  /-- S1 `phase`. -/
  phase      : Phase
  /-- S2 `bit_idx`, 0 to 39 (R12). -/
  bitIdx     : Fin 40
  /-- S3 `timer`, `TIMER_W` bits (R13, log 5). -/
  timer      : Nat
  /-- S4 `cnt`, `CNT_W` bits (R14, log 5). -/
  cnt        : Nat
  /-- S5 `ref_cnt`, `CNT_W` bits (R15, log 5). -/
  refCnt     : Nat
  /-- S6 `sh` (R16). -/
  sh         : Frame
  /-- S7 `frame40`, port `frame[39:0]` (R17). -/
  frame40    : Frame
  /-- S8 `frame_valid` (R18). -/
  frameValid : Bool
  /-- S9 `status` (R19). -/
  status     : Status
  /-- The host's state, outside the block (R27). -/
  host       : ReadState
  /-- The input triples of the coming ticks, this tick's first (log 1). -/
  inputs     : List Inputs
  /-- The number of ticks run; it selects the free input of a tick the list does not cover (log 1). -/
  tick       : Nat
deriving DecidableEq, Repr

/-- Reasons to stop. Nothing in the hardware stops it (60_exceptions.md R213). -/
inductive Fault where
  /-- Raised by `step` when the fetched word is a reserved code; a fault of the model, not of the hardware (93 U13).
  No state raises it, since `Phase` has no reserved code (log 6). Safe. -/
  | reservedCode
deriving DecidableEq, Repr

/-- Reasons to refuse. -/
inductive Refusal where
  /-- Raised by `exec` for an operation with no meaning yet; every operation has one, so none raises it. Safe. -/
  | notModelled (mnemonic : String)
deriving DecidableEq, Repr

/-- The state right after reset (70_reset_and_hazards.md R231): the block's elements zero, the host's ReadState
"infinitely in the past", the parameters open (log 2), no input listed (log 1). -/
def State.reset : State :=
  { params     := Config.params
    phase      := .idle
    bitIdx     := 0
    timer      := 0
    cnt        := 0
    refCnt     := 0
    sh         := 0#40
    frame40    := 0#40
    frameValid := false
    status     := .none
    host       := { lastAttemptMs := none, lastResult := none }
    inputs     := []
    tick       := 0 }

end Sys2Proof.Machine
end

