-- ==== Sys2Proof/Machine/Operands.lean ====
section
/-!
DEFINITION. Codes, widths and operands: the numbers of 30_encoding.md R67 and R68, the register widths and
defaults of 00_scope.md R9, and the operand assembly of 30_encoding.md R72.
-/

namespace Sys2Proof

/-- The smallest `w` at least 1 with `2^w >= n` (00_scope.md R9). -/
def bitsFor (n : Nat) : Nat :=
  Nat.log2 (n - 1) + 1

/-- `CNT_W`: the width of `cnt` and `ref_cnt` (R9). -/
def Params.cntW (p : Params) : Nat :=
  bitsFor p.cycleBudget

/-- `TIMER_W`: the width of `timer` (R9). -/
def Params.timerW (p : Params) : Nat :=
  bitsFor (max p.tSettle (max p.tReqLow p.tReqHigh))

/-- The tick of the first sample, counted from the tick that accepts START (41_sequencer.md R119). -/
def Params.tListen (p : Params) : Nat :=
  1 + p.tSettle + p.tReqLow + p.tReqHigh

/-- The greatest number of ticks a read takes, the accepting tick and the last one included
(70_reset_and_hazards.md R247). -/
def Params.readBound (p : Params) : Nat :=
  1 + p.tSettle + p.tReqLow + p.tReqHigh + 82 * p.cycleBudget + 1

/-- `ceil(a / b)`. -/
def ceilDiv (a b : Nat) : Nat :=
  (a + b - 1) / b

/-- `ceil(rate * a / b)`, for a rate that is not negative. -/
def ceilTicks (rate : Rat) (a b : Nat) : Nat :=
  ceilDiv (rate.num.toNat * a) (rate.den * b)

/-- The defaults of R9 at a tick rate: budget and request low of about 1 ms, request high of about 40 µs.
The settle delay has no default. -/
def Params.defaults (pinId : Nat) (fTickHz : Rat) (tSettle : Nat) : Params :=
  { pinId       := pinId
    fTickHz     := fTickHz
    cycleBudget := ceilTicks fTickHz 1 1000
    tSettle     := tSettle
    tReqLow     := ceilTicks fTickHz 1 1000
    tReqHigh    := ceilTicks fTickHz 40 1000000 }

namespace Machine

/-- The 4-bit code of a phase (30_encoding.md R68). -/
def Phase.code : Phase → BitVec 4
  | .idle     => 0#4
  | .settle   => 1#4
  | .reqLow   => 2#4
  | .reqHigh  => 3#4
  | .ackLow   => 4#4
  | .ackHigh  => 5#4
  | .bitLow   => 6#4
  | .bitHigh  => 7#4
  | .checksum => 8#4

/-- The operation a phase selects (30_encoding.md R68). -/
def Phase.instr : Phase → Instr
  | .idle     => .idle
  | .settle   => .settle
  | .reqLow   => .reqLow
  | .reqHigh  => .reqHigh
  | .ackLow   => .ackLow
  | .ackHigh  => .ackHigh
  | .bitLow   => .bitLow
  | .bitHigh  => .bitHigh
  | .checksum => .checksum

/-- The four measuring phases, those that sample the line (20_memory.md R41, pattern `01kl` of 30_encoding.md R68). -/
def Phase.measures : Phase → Bool
  | .idle     => false
  | .settle   => false
  | .reqLow   => false
  | .reqHigh  => false
  | .ackLow   => true
  | .ackHigh  => true
  | .bitLow   => true
  | .bitHigh  => true
  | .checksum => false

/-- The measuring phase with the code `01kl` (30_encoding.md R68). -/
def measuringPhase : PulseKind → Level → Phase
  | .acknowledge, .low  => .ackLow
  | .acknowledge, .high => .ackHigh
  | .bitSymbol,   .low  => .bitLow
  | .bitSymbol,   .high => .bitHigh

/-- The expected level of a measurement is bit 0 of the phase code (30_encoding.md R68, R72 (c)). -/
def Phase.expectedLevel (p : Phase) : Level :=
  Level.ofBit (p.code.getLsbD 0)

/-- The failure a timeout of a measuring phase raises (60_exceptions.md R201 to R203); none for other phases. -/
def Phase.timeoutFailure : Phase → Option Failure
  | .ackLow   => some .startLowTimeout
  | .ackHigh  => some .startHighTimeout
  | .bitLow   => some .bitTimeout
  | .bitHigh  => some .bitTimeout
  | .idle     => none
  | .settle   => none
  | .reqLow   => none
  | .reqHigh  => none
  | .checksum => none

/-- The code of a block failure (60_exceptions.md R200, 30_encoding.md R67). -/
def Failure.code : Failure → BitVec 3
  | .startLowTimeout  => 2#3
  | .startHighTimeout => 3#3
  | .bitTimeout       => 4#3
  | .checksumMismatch => 5#3

/-- The 3-bit code of a status (30_encoding.md R67). -/
def Status.code : Status → BitVec 3
  | .none     => 0#3
  | .ok       => 1#3
  | .failed f => f.code

/-- The code a host that keeps one combined status stores for a failure: 6 for the converter's (30_encoding.md R67). -/
def ErrorKind.code : ErrorKind → BitVec 3
  | .block f    => f.code
  | .outOfRange => 6#3

/-- Byte `k` of a frame, `frame[0]` the first to arrive: `frame[k] = frame40[39 - 8k : 32 - 8k]`
(20_memory.md R46, 30_encoding.md R63). -/
def frameByte (f : Frame) (k : Fin 5) : Byte :=
  f.extractLsb' (32 - 8 * k.val) 8

/-- `{sh[38:0], b}`: the bits move up one place, bit 39 is dropped, the new bit enters at bit 0
(30_encoding.md R72 (a), 42_bit_capture.md R144). -/
def shiftIn (sh : Frame) (b : Bool) : Frame :=
  (sh.setWidth 39).concat b

/-- The bit decision: 1 exactly when the data count exceeds the reference count, so a tie is 0
(30_encoding.md R65, 42_bit_capture.md R142, R143). -/
def decideBit (highCount lowCount : Nat) : Bool :=
  decide (highCount > lowCount)

/-- The sum of the first four bytes, taken in 10 bits and reduced modulo 256 (43_frame_validator.md R161, R162). -/
def checksumOf (f : Frame) : Byte :=
  ((frameByte f 0).zeroExtend 10 + (frameByte f 1).zeroExtend 10
    + (frameByte f 2).zeroExtend 10 + (frameByte f 3).zeroExtend 10).setWidth 8

/-- The fifth byte equals the sum of the first four modulo 256 (43_frame_validator.md R160). -/
def frameChecks (f : Frame) : Bool :=
  checksumOf f == frameByte f 4

end Machine

end Sys2Proof
end

