-- ==== Sys2Proof/Machine/Flags.lean ====
section
/-!
DEFINITION. The output ports: functions of `phase` (10_state.md R20 to R22) and the three result ports (R17 to R19).
-/

namespace Sys2Proof.Machine

/-- O1 `busy`: `phase != IDLE` (R20). -/
def Phase.busy (p : Phase) : Bool :=
  decide (p ≠ .idle)

/-- O2 `ready`: `phase = IDLE` (R20). -/
def Phase.ready (p : Phase) : Bool :=
  decide (p = .idle)

/-- O3 `crit`: the request for the host's no-preemption scope, steps 2 to 8 (R21, 60_exceptions.md R207). -/
def Phase.crit : Phase → Bool
  | .idle     => false
  | .settle   => false
  | .reqLow   => true
  | .reqHigh  => true
  | .ackLow   => true
  | .ackHigh  => true
  | .bitLow   => true
  | .bitHigh  => true
  | .checksum => false

/-- O4 `line_oe`: the block drives the line (R22). -/
def Phase.lineOe : Phase → Bool
  | .idle     => false
  | .settle   => false
  | .reqLow   => true
  | .reqHigh  => true
  | .ackLow   => false
  | .ackHigh  => false
  | .bitLow   => false
  | .bitHigh  => false
  | .checksum => false

/-- O5 `line_o`: the level driven; fixed at 1 while the line is not driven (R22, D32). -/
def Phase.lineO : Phase → Level
  | .idle     => .high
  | .settle   => .high
  | .reqLow   => .low
  | .reqHigh  => .high
  | .ackLow   => .high
  | .ackHigh  => .high
  | .bitLow   => .high
  | .bitHigh  => .high
  | .checksum => .high

/-- The ports of D2 as the host and the pad see them between two ticks. -/
structure Outputs where
  ready      : Bool
  busy       : Bool
  crit       : Bool
  lineOe     : Bool
  lineO      : Level
  status     : BitVec 3
  frameValid : Bool
  frame      : Frame
deriving DecidableEq, Repr

/-- `LineDrive(oe, o)`: the pair of pad outputs, the block's one store (20_memory.md R42). -/
def State.lineDrive (s : State) : Bool × Level :=
  (s.phase.lineOe, s.phase.lineO)

/-- The eight output ports of a state (10_state.md R10, D2). -/
def State.outputs (s : State) : Outputs :=
  { ready      := s.phase.ready
    busy       := s.phase.busy
    crit       := s.phase.crit
    lineOe     := s.phase.lineOe
    lineO      := s.phase.lineO
    status     := s.status.code
    frameValid := s.frameValid
    frame      := s.frame40 }

end Sys2Proof.Machine
end

