-- ==== Sys2Proof/Machine/Ops.lean ====
section
/-!
DEFINITION. The operations the meanings share: the inputs of a tick, LineSample, clearing, a timed phase, MEASURE,
and entering a failure. There is no memory to read or write (20_memory.md R40).
-/

namespace Sys2Proof.Machine

/-- The input triple of this tick: the first listed one, or a free value where none is listed (10_state.md R23, log 1). -/
def State.input (s : State) : Inputs :=
  match s.inputs with
  | []     => Config.freeInput s.tick
  | x :: _ => x

/-- Port `rst` at this tick (I2). -/
def State.rst (s : State) : Bool :=
  s.input.rst

/-- Port `start` at this tick (I3). -/
def State.start (s : State) : Bool :=
  s.input.start

/-- `LineSample()`: port `line_i` at this tick, the block's one load; no side effect (20_memory.md R41). -/
def State.lineSample (s : State) : Level :=
  s.input.line

/-- The same state with another input triple at this tick. -/
def State.withInput (s : State) (x : Inputs) : State :=
  { s with inputs := x :: s.inputs.tail }

/-- The clock event: this tick's inputs are gone, the next tick's are due (00_scope.md R7). -/
def State.advance (s : State) : State :=
  { s with inputs := s.inputs.tail, tick := s.tick + 1 }

/-- All nine elements of the block cleared but `phase`, which is set (41_sequencer.md R110, 70_reset_and_hazards.md R230). -/
def State.clear (s : State) (p : Phase) : State :=
  { s with
    phase      := p
    bitIdx     := 0
    timer      := 0
    cnt        := 0
    refCnt     := 0
    sh         := 0#40
    frame40    := 0#40
    frameValid := false
    status     := .none }

/-- Accepting START: everything cleared, the request begins (41_sequencer.md R110). -/
def acceptStart (s : State) : State :=
  s.clear .settle

/-- One more, in a register of `w` bits (10_state.md R13, R14, log 5). -/
def increment (w n : Nat) : Nat :=
  (n + 1) % 2 ^ w

/-- One tick of a timed phase of length `n` with successor `next` (41_sequencer.md R123). -/
def timed (n : Nat) (next : Phase) (s : State) : State :=
  if s.timer = n - 1 then { s with timer := 0, phase := next }
  else { s with timer := increment s.params.timerW s.timer }

/-- One tick of a measurement at the expected level `l`: its result, none while it goes on, and the state it leaves.
It writes `cnt` only (40_pulse_timer.md R91 to R94, R96). -/
def measureTick (l : Level) (s : State) : Option PulseMeasurement × State :=
  if s.lineSample = l then
    if s.cnt = s.params.cycleBudget - 1 then (some .timeout, s)
    else (none, { s with cnt := increment s.params.cntW s.cnt })
  else (some (.count s.cnt), { s with cnt := 0 })

/-- `raise Failure(kind)`: the code goes to `status`, control to `IDLE`, and nothing else is written; no state is
saved and no mode changes (60_exceptions.md R210). There is no return operation beside it (R212). -/
def raiseFailure (f : Failure) (s : State) : State :=
  { s with status := .failed f, phase := .idle }

end Sys2Proof.Machine
end

