-- ==== Sys2Proof/Machine/BitCapture.lean ====
section
/-!
DEFINITION. The two phases of the bit loop (42_bit_capture.md).
-/

namespace Sys2Proof.Machine

/-- BIT_LOW, step 7, first half: the reference count is kept (42_bit_capture.md R140). -/
def execBitLow (s : State) : Host.Outcome State Fault Refusal :=
  .next (match measureTick .low s with
    | (none, t)            => t
    | (some .timeout, t)   => raiseFailure .bitTimeout t
    | (some (.count n), t) => { t with refCnt := n, phase := .bitHigh })

/-- What follows the shift of a decided bit: CHECKSUM after position 39, else the next position
(42_bit_capture.md R141, R145). -/
def nextPosition (s : State) : State :=
  if s.bitIdx = 39 then { s with phase := .checksum }
  else { s with bitIdx := s.bitIdx + 1, phase := .bitLow }

/-- BIT_HIGH, step 7, second half, and step 8: compare, shift, and go on (42_bit_capture.md R141 to R145). -/
def execBitHigh (s : State) : Host.Outcome State Fault Refusal :=
  .next (match measureTick .high s with
    | (none, t)            => t
    | (some .timeout, t)   => raiseFailure .bitTimeout t
    | (some (.count n), t) => nextPosition { t with sh := shiftIn t.sh (decideBit n t.refCnt) })

end Sys2Proof.Machine
end

