-- ==== Sys2Proof/Machine/FrameValidator.lean ====
section
/-!
DEFINITION. The Frame Validator's one operation, CHECKSUM (43_frame_validator.md).
-/

namespace Sys2Proof.Machine

/-- CHECKSUM: `frame40` is loaded in both outcomes; equal sums give OK, others the CHECKSUM_MISMATCH failure
(43_frame_validator.md R161, 60_exceptions.md R204). -/
def execChecksum (s : State) : Host.Outcome State Fault Refusal :=
  .next (if frameChecks s.sh
    then { s with frame40 := s.sh, status := .ok, frameValid := true, phase := .idle }
    else raiseFailure .checksumMismatch { s with frame40 := s.sh })

end Sys2Proof.Machine
end

