-- ==== Sys2Proof/Machine/PulseTimer.lean ====
section
/-!
DEFINITION. The Pulse Timer's one operation, MEASURE (40_pulse_timer.md).
-/

namespace Sys2Proof.Machine

/-- MEASURE, one tick on its own: `cnt` is written and the result, which exists only within the tick
(10_state.md R24), has no caller to go to (40_pulse_timer.md R91, R96, log 11). Bit `k` takes no part in it. -/
def execMeasure (_k : PulseKind) (l : Level) (s : State) : Host.Outcome State Fault Refusal :=
  .next (measureTick l s).2

end Sys2Proof.Machine
end

