-- ==== Sys2Proof/Machine/Sequencer.lean ====
section
/-!
DEFINITION. The idle phase, the three timed phases of the request and the two acknowledge phases (41_sequencer.md).
-/

namespace Sys2Proof.Machine

/-- IDLE: wait for `start`; START when it is raised (30_encoding.md R68, 41_sequencer.md R110, R111). -/
def execIdle (s : State) : Host.Outcome State Fault Refusal :=
  .next (if s.start then acceptStart s else s)

/-- SETTLE, step 1: the line stays released (41_sequencer.md R112). -/
def execSettle (s : State) : Host.Outcome State Fault Refusal :=
  .next (timed s.params.tSettle .reqLow s)

/-- REQ_LOW, step 2: the line is driven low (41_sequencer.md R113). -/
def execReqLow (s : State) : Host.Outcome State Fault Refusal :=
  .next (timed s.params.tReqLow .reqHigh s)

/-- REQ_HIGH, steps 3 and 4: the line is driven high, and on the tick that leaves the phase `cnt` is cleared
(41_sequencer.md R114, R115). -/
def execReqHigh (s : State) : Host.Outcome State Fault Refusal :=
  .next (if s.timer = s.params.tReqHigh - 1
    then { timed s.params.tReqHigh .ackLow s with cnt := 0 }
    else timed s.params.tReqHigh .ackLow s)

/-- ACK_LOW, step 5: the count is discarded, a timeout is START_LOW_TIMEOUT (41_sequencer.md R116). -/
def execAckLow (s : State) : Host.Outcome State Fault Refusal :=
  .next (match measureTick .low s with
    | (none, t)            => t
    | (some .timeout, t)   => raiseFailure .startLowTimeout t
    | (some (.count _), t) => { t with phase := .ackHigh })

/-- ACK_HIGH, step 6: the count is discarded, a timeout is START_HIGH_TIMEOUT (41_sequencer.md R117). -/
def execAckHigh (s : State) : Host.Outcome State Fault Refusal :=
  .next (match measureTick .high s with
    | (none, t)            => t
    | (some .timeout, t)   => raiseFailure .startHighTimeout t
    | (some (.count _), t) => { t with phase := .bitLow, bitIdx := 0 })

end Sys2Proof.Machine
end

