-- ==== Sys2Proof/Machine/Commands.lean ====
section
/-!
DEFINITION. The three commands of the host, as the word `{rst, start}` of one tick (30_encoding.md R69).
-/

namespace Sys2Proof.Machine

/-- RESET, in any phase, `start` ignored (70_reset_and_hazards.md R230, R232). -/
def execReset (_s : Bool) (s : State) : Host.Outcome State Fault Refusal :=
  .next (s.clear .idle)

/-- A tick that takes no command: the block steps by its phase alone, and rests in IDLE (30_encoding.md R69,
41_sequencer.md R111). -/
def uncommanded (s : State) : Host.Outcome State Fault Refusal :=
  match s.phase with
  | .idle     => .next s
  | .settle   => execSettle s
  | .reqLow   => execReqLow s
  | .reqHigh  => execReqHigh s
  | .ackLow   => execAckLow s
  | .ackHigh  => execAckHigh s
  | .bitLow   => execBitLow s
  | .bitHigh  => execBitHigh s
  | .checksum => execChecksum s

/-- START: accepted in IDLE; while busy the port is not read and the tick is as without a command
(41_sequencer.md R110, R111, log 10). -/
def execStart (s : State) : Host.Outcome State Fault Refusal :=
  if s.phase = .idle then .next (acceptStart s) else uncommanded s

/-- NOP: no command (41_sequencer.md R111, log 10). -/
def execNop (s : State) : Host.Outcome State Fault Refusal :=
  uncommanded s

end Sys2Proof.Machine
end

