-- ==== Sys2Proof/Machine/Dispatch.lean ====
section
/-!
DEFINITION. The meaning of every operation, one arm each.
-/

namespace Sys2Proof.Machine

def exec (i : Instr) (s : State) : Host.Outcome State Fault Refusal :=
  match i with
  -- commands (30_encoding.md R69)
  | .reset b => Sys2Proof.Machine.execReset b s
  | .start => Sys2Proof.Machine.execStart s
  | .nop => Sys2Proof.Machine.execNop s
  -- phases (30_encoding.md R68)
  | .idle => Sys2Proof.Machine.execIdle s
  | .settle => Sys2Proof.Machine.execSettle s
  | .reqLow => Sys2Proof.Machine.execReqLow s
  | .reqHigh => Sys2Proof.Machine.execReqHigh s
  -- the shared sub-operation
  | .measure k l => Sys2Proof.Machine.execMeasure k l s
  -- measuring phases
  | .ackLow => Sys2Proof.Machine.execAckLow s
  | .ackHigh => Sys2Proof.Machine.execAckHigh s
  | .bitLow => Sys2Proof.Machine.execBitLow s
  | .bitHigh => Sys2Proof.Machine.execBitHigh s
  -- validation
  | .checksum => Sys2Proof.Machine.execChecksum s

end Sys2Proof.Machine
end

