-- ==== Sys2Proof/Machine/Fetch.lean ====
section
/-!
DEFINITION. Which word a tick runs, and how a word is placed so that the next tick runs it. There is no instruction
store: the sequence is hardwired (20_memory.md R53), `phase` is counter and operation code in one (10_state.md R11).
-/

namespace Sys2Proof.Machine

/-- The word a tick runs: the command word when `rst` is raised, else the phase code (10_state.md R30). -/
def State.fetchWord (s : State) : CodeWord :=
  if s.rst then cmdWord s.rst s.start else .phase s.phase.code

/-- The command word the host presents at this tick (30_encoding.md R69). -/
def State.commandWord (s : State) : CodeWord :=
  cmdWord s.rst s.start

/-- This tick's command ports set, the line as it is. -/
def State.drive (s : State) (rst start : Bool) : State :=
  s.withInput { rst := rst, start := start, line := s.lineSample }

/-- The phase the tick runs, with `rst` not raised. -/
def State.enter (s : State) (p : Phase) : State :=
  { s.drive false s.start with phase := p }

/-- The operation placed where the next tick finds it: a command on the command ports, a phase operation in `phase`,
MEASURE by the measuring phase of its pattern (log 3, log 4). -/
def State.place (s : State) : Instr → State
  | .reset b     => s.drive true b
  | .start       => s.drive false true
  | .nop         => s.drive false false
  | .idle        => s.enter .idle
  | .settle      => s.enter .settle
  | .reqLow      => s.enter .reqLow
  | .reqHigh     => s.enter .reqHigh
  | .measure k l => s.enter (measuringPhase k l)
  | .ackLow      => s.enter .ackLow
  | .ackHigh     => s.enter .ackHigh
  | .bitLow      => s.enter .bitLow
  | .bitHigh     => s.enter .bitHigh
  | .checksum    => s.enter .checksum

/-- The step's outcome after the meaning's: the clock moves on from a next state. -/
def thenAdvance : Host.Outcome State Fault Refusal → Host.Outcome State Fault Refusal
  | .next t    => .next t.advance
  | .fault r   => .fault r
  | .refused r => .refused r

end Sys2Proof.Machine
end

