-- ==== Sys2Proof/Machine/Step.lean ====
section
/-!
DEFINITION. One tick of the block (10_state.md R30).
-/

namespace Sys2Proof.Machine

/-- At every tick exactly one step: the fetched word is decoded and run, and the clock moves on. -/
def step (s : State) : Host.Outcome State Fault Refusal :=
  match decode s.fetchWord with
  | .ok i    => thenAdvance (exec i s)
  | .error _ => .fault .reservedCode

/-- The state in which the next step runs the operation a number of the opcode table decodes to (log 4);
the state unchanged where it decodes to none. -/
def State.withFetchWord (s : State) (nbits w : Nat) : State :=
  match decodeTableWord nbits w with
  | some i => s.place i
  | none   => s

end Sys2Proof.Machine
end

