-- ==== Sys2Proof/Machine/Converter.lean ====
section
/-!
DEFINITION. The host's Measurement Converter (44_host_software.md R170 to R177), outside the block.
-/

namespace Sys2Proof.Machine

/-- `H10`: humidity in tenths of a percent (R171). -/
def humidityTenths (f : Frame) : Nat :=
  (frameByte f 0).toNat * 256 + (frameByte f 1).toNat

/-- `M10`: the 15-bit magnitude of the temperature in tenths of a degree (R172). -/
def temperatureMagnitude (f : Frame) : Nat :=
  (frameByte f 2 &&& 0x7F#8).toNat * 256 + (frameByte f 3).toNat

/-- `T10`: sign and magnitude; bit 7 of `frame[2]` negates (R172). -/
def temperatureTenths (f : Frame) : Int :=
  if (frameByte f 2).getLsbD 7 then -(temperatureMagnitude f : Int) else (temperatureMagnitude f : Int)

/-- The range check on exact tenths, bounds included (R173, R175; the source's defect of R186 is not reproduced). -/
def inRange (t10 : Int) (h10 : Nat) : Bool :=
  decide (-400 ≤ t10 ∧ t10 ≤ 800 ∧ h10 ≤ 1000)

/-- `convert(frame)`: a reading, or `OutOfRange` for both fields together (R170, R173, R174, R177). -/
def convert (f : Frame) : ReadResult :=
  if inRange (temperatureTenths f) (humidityTenths f) then
    .reading (temperatureTenths f) (humidityTenths f)
  else .error .outOfRange

/-- SensorReading, in tenths; none is `NotAvailable` (R176). -/
structure SensorReading where
  temperature : Option Int
  humidity    : Option Int
deriving DecidableEq, Repr

/-- The two output fields of a result: both available, or on any failure neither (R174, R176, R182). -/
def ReadResult.fields : ReadResult → SensorReading
  | .reading t h => { temperature := some t, humidity := some (h : Int) }
  | .error _     => { temperature := none, humidity := none }

/-- The fields as the host's float format writes them: the numbers `T10 / 10`, `H10 / 10` (R175, log 7). -/
def SensorReading.delivered (r : SensorReading) : Option Nat × Option Nat :=
  (r.temperature.map Config.floatPattern, r.humidity.map Config.floatPattern)

end Sys2Proof.Machine
end

