-- ==== Sys2Proof/Machine/Scheduler.lean ====
section
/-!
DEFINITION. The host's Read Scheduler and public API over the block's step (44_host_software.md R178 to R185),
outside the block. The host drives `rst` and `start` at each tick of a call; the line stays as supplied (log 8).
-/

namespace Sys2Proof.Machine

/-- A call is short-circuited when it is not forced and less than 2000 ms have passed since the last attempt;
"infinitely in the past" never is (R178 to R180). -/
def tooSoon (force : Bool) (now : Nat) (h : ReadState) : Bool :=
  !force && (match h.lastAttemptMs with
    | none   => false
    | some t => decide (now - t < minIntervalMs))

/-- One tick under the host's hand: `rst` low, `start` as given (R178). -/
def hostTick (start : Bool) (s : State) : Host.Outcome State Fault Refusal :=
  step (s.drive false start)

/-- Ticks with no command until `ready`, at most `fuel` of them; none if that is too few. -/
def waitReady : Nat → State → Option State
  | 0, s        => if s.phase.ready then some s else none
  | fuel + 1, s =>
    if s.phase.ready then some s
    else match hostTick false s with
      | .next t    => waitReady fuel t
      | .fault _   => none
      | .refused _ => none

/-- One read of the block: `start` for one tick, then wait until `busy = 0` (R178). -/
def blockRead (s : State) : Option State :=
  match hostTick true s with
  | .next t    => waitReady s.params.readBound t
  | .fault _   => none
  | .refused _ => none

/-- What the host makes of the ports after a read: the kind of `status`, or the converter's result (R170, R178).
A status of `NONE` is no outcome of a read. -/
def resultOf (s : State) : Option ReadResult :=
  match s.status with
  | .none     => none
  | .ok       => some (convert s.frame40)
  | .failed f => some (.error (.block f))

/-- `read(force)` at the time `now` in milliseconds: the call's result and the state after it (R178 to R182).
The time of the attempt is recorded before the decode starts, whatever its outcome (90_conflicts.md C6). -/
def hostRead (force : Bool) (now : Nat) (s : State) : Option (ReadResult × State) :=
  if tooSoon force now s.host then
    match s.host.lastResult with
    | some r => some (r, s)
    | none   => none
  else
    match waitReady s.params.readBound { s with host := { s.host with lastAttemptMs := some now } } with
    | none   => none
    | some t =>
      match blockRead t with
      | none   => none
      | some u =>
        match resultOf u with
        | none   => none
        | some r => some (r, { u with host := { u.host with lastResult := some r } })

/-- `initialize(pin_identifier)`: the parameters fixed from the tick rate, ReadState "infinitely in the past", and a
RESET of the block (R183, 70_reset_and_hazards.md R234). -/
def hostInitialize (pinId : Nat) (fTickHz : Rat) (tSettle : Nat) (s : State) : Host.Outcome State Fault Refusal :=
  step ({ s with
    params := Params.defaults pinId fTickHz tSettle
    host   := { lastAttemptMs := none, lastResult := none } }.drive true false)

end Sys2Proof.Machine
end

