-- ==== Sys2Proof/Machine/Stimulus.lean ====
section
/-!
DEFINITION. Stimulus programs: run lengths of line samples and the input triples they denote (30_encoding.md R73),
and the nominal waveform of a frame (R60 to R62, 42_bit_capture.md R151).
-/

namespace Sys2Proof.Machine

/-- `L<n>` or `H<n>`: `n` consecutive samples of one level (R73). -/
abbrev Run := Level × Nat

/-- The samples that runs denote, in order. -/
def samples : List Run → List Level
  | []           => []
  | (l, n) :: rs => List.replicate n l ++ samples rs

/-- The triple `(0, 0, line)`: a tick without a command. -/
def quiet (l : Level) : Inputs :=
  { rst := false, start := false, line := l }

/-- The triple `(0, 1, line)`. -/
def starting (l : Level) : Inputs :=
  { rst := false, start := true, line := l }

/-- A stimulus program from the tick that accepts START: unread line values up to `t_listen`, then the samples
(R73, 41_sequencer.md R119). `unread` stands for the `x` of the samples that are never read (log 13). -/
def stimulus (p : Params) (unread : Level) (line : List Level) : List Inputs :=
  starting unread :: (List.replicate (p.tListen - 1) (quiet unread) ++ line.map quiet)

/-- The bits of a frame in arrival order: position `i` is bit `39 - i` (20_memory.md R44 to R46). -/
def arrivalBits (f : Frame) : List Bool :=
  (List.range 40).map fun i => f.getLsbD (39 - i)

/-- One bit symbol of lengths `(a, c)`: a low reference pulse of `a` samples, a high data pulse of `c` (R60). -/
def symbolRuns (s : Nat × Nat) : List Run :=
  [(.low, s.1), (.high, s.2)]

/-- Symbols in order. -/
def symbolsRuns : List (Nat × Nat) → List Run
  | []      => []
  | s :: ss => symbolRuns s ++ symbolsRuns ss

/-- The symbols of a frame at fixed lengths: reference `a`, data `c0` for a 0 and `c1` for a 1 (42_bit_capture.md R151). -/
def frameSymbols (f : Frame) (a c0 c1 : Nat) : List (Nat × Nat) :=
  (arrivalBits f).map fun b => (a, if b then c1 else c0)

/-- A sensor's response: acknowledge low, acknowledge high, the symbols, and the first low sample of the closing
pulse (R62, R151). -/
def responseRuns (ackLow ackHigh : Nat) (symbols : List (Nat × Nat)) : List Run :=
  [(.low, ackLow), (.high, ackHigh)] ++ symbolsRuns symbols ++ [(.low, 1)]

end Sys2Proof.Machine
end

