-- ==== Sys2Proof/Safety.lean ====
section
/-!
DEFINITION. The terms claims are made in: the invariants of reachable states, the control table, and the duties of a
host that uses the block as it should.
-/

namespace Sys2Proof.Machine

/-- The checksum equation on unsigned numbers (43_frame_validator.md R160, R162). -/
abbrev SumHolds (f : Frame) : Prop :=
  (frameByte f 4).toNat
    = ((frameByte f 0).toNat + (frameByte f 1).toNat + (frameByte f 2).toNat + (frameByte f 3).toNat) % 256

/-- The result registers tell one consistent story (10_state.md R28 (a) to (f)). -/
abbrev State.ResultInv (s : State) : Prop :=
  (s.phase.busy = true → s.status = .none ∧ s.frameValid = false ∧ s.frame40 = 0#40)
  ∧ (s.frameValid = true ↔ s.status = .ok)
  ∧ (s.status = .ok → SumHolds s.frame40)
  ∧ (s.status = .failed .checksumMismatch → ¬ SumHolds s.frame40)
  ∧ (s.status ≠ .ok → s.status ≠ .failed .checksumMismatch → s.frame40 = 0#40)
  ∧ s.bitIdx.val ≤ 39 ∧ s.cnt ≤ s.params.cycleBudget - 1

/-- `timer` is below the length of the timed phase it counts, and 0 in every other phase (10_state.md R13). -/
def State.TimerInv (s : State) : Prop :=
  match s.phase with
  | .settle   => s.timer < s.params.tSettle
  | .reqLow   => s.timer < s.params.tReqLow
  | .reqHigh  => s.timer < s.params.tReqHigh
  | .idle     => s.timer = 0
  | .ackLow   => s.timer = 0
  | .ackHigh  => s.timer = 0
  | .bitLow   => s.timer = 0
  | .bitHigh  => s.timer = 0
  | .checksum => s.timer = 0

/-- The capture registers by phase: clear before the bit loop, `sh` no longer than the bits decided so far
(10_state.md R12, R14 to R16, 42_bit_capture.md R144, R145). -/
def State.CaptureInv (s : State) : Prop :=
  match s.phase with
  | .idle     => True
  | .settle   => s.cnt = 0 ∧ s.refCnt = 0 ∧ s.bitIdx = 0 ∧ s.sh = 0#40
  | .reqLow   => s.cnt = 0 ∧ s.refCnt = 0 ∧ s.bitIdx = 0 ∧ s.sh = 0#40
  | .reqHigh  => s.cnt = 0 ∧ s.refCnt = 0 ∧ s.bitIdx = 0 ∧ s.sh = 0#40
  | .ackLow   => s.refCnt = 0 ∧ s.bitIdx = 0 ∧ s.sh = 0#40
  | .ackHigh  => s.refCnt = 0 ∧ s.bitIdx = 0 ∧ s.sh = 0#40
  | .bitLow   => s.sh.toNat < 2 ^ s.bitIdx.val
  | .bitHigh  => s.sh.toNat < 2 ^ s.bitIdx.val ∧ s.refCnt ≤ s.params.cycleBudget - 1
  | .checksum => s.bitIdx.val = 39

/-- Every counter fits its register (10_state.md R10, 00_scope.md R9). -/
abbrev State.WidthInv (s : State) : Prop :=
  s.timer < 2 ^ s.params.timerW ∧ s.cnt < 2 ^ s.params.cntW ∧ s.refCnt < 2 ^ s.params.cntW

/-- The table of every assignment to `phase` at a tick with `rst = 0` (41_sequencer.md R118), row by row; where no row
applies the phase keeps its value. -/
def controlTable (s : State) : Phase :=
  match s.phase with
  | .idle     => if s.start then .settle else .idle
  | .settle   => if s.timer = s.params.tSettle - 1 then .reqLow else .settle
  | .reqLow   => if s.timer = s.params.tReqLow - 1 then .reqHigh else .reqLow
  | .reqHigh  => if s.timer = s.params.tReqHigh - 1 then .ackLow else .reqHigh
  | .ackLow   =>
    if s.lineSample = .high then .ackHigh
    else if s.cnt = s.params.cycleBudget - 1 then .idle else .ackLow
  | .ackHigh  =>
    if s.lineSample = .low then .bitLow
    else if s.cnt = s.params.cycleBudget - 1 then .idle else .ackHigh
  | .bitLow   =>
    if s.lineSample = .high then .bitHigh
    else if s.cnt = s.params.cycleBudget - 1 then .idle else .bitLow
  | .bitHigh  =>
    if s.lineSample = .low then (if s.bitIdx.val < 39 then .bitLow else .checksum)
    else if s.cnt = s.params.cycleBudget - 1 then .idle else .bitHigh
  | .checksum => .idle

/-- The length of a timed phase (41_sequencer.md R112 to R114); none for the others. -/
def Phase.timedLength (p : Params) : Phase → Option Nat
  | .settle   => some p.tSettle
  | .reqLow   => some p.tReqLow
  | .reqHigh  => some p.tReqHigh
  | .idle     => none
  | .ackLow   => none
  | .ackHigh  => none
  | .bitLow   => none
  | .bitHigh  => none
  | .checksum => none

/-- The phase that follows a completed timed phase or measurement at bit position `k` (41_sequencer.md R118). -/
def Phase.successor (k : Fin 40) : Phase → Phase
  | .idle     => .settle
  | .settle   => .reqLow
  | .reqLow   => .reqHigh
  | .reqHigh  => .ackLow
  | .ackLow   => .ackHigh
  | .ackHigh  => .bitLow
  | .bitLow   => .bitHigh
  | .bitHigh  => if k = 39 then .checksum else .bitLow
  | .checksum => .idle

/-- `n` ticks, stopping where a step stops. -/
def runTicks : Nat → State → Host.Outcome State Fault Refusal
  | 0, s     => .next s
  | n + 1, s =>
    match step s with
    | .next t    => runTicks n t
    | .fault r   => .fault r
    | .refused r => .refused r

/-- The two states agree on the nine elements of the block (10_state.md R10). -/
abbrev SameBlock (s t : State) : Prop :=
  s.phase = t.phase ∧ s.bitIdx = t.bitIdx ∧ s.timer = t.timer ∧ s.cnt = t.cnt ∧ s.refCnt = t.refCnt
    ∧ s.sh = t.sh ∧ s.frame40 = t.frame40 ∧ s.frameValid = t.frameValid ∧ s.status = t.status

/-- The first `n` ticks are listed and none raises `rst`. -/
abbrev State.NoReset (s : State) (n : Nat) : Prop :=
  n ≤ s.inputs.length ∧ ∀ x ∈ s.inputs.take n, x.rst = false

/-- A read begins at this tick: the block is idle and takes START (41_sequencer.md R110). -/
abbrev State.AcceptsStart (s : State) : Prop :=
  s.phase = .idle ∧ s.rst = false ∧ s.start = true

/-- The host holds a result from its first attempt on (44_host_software.md R178, R181). -/
abbrev State.HostInv (s : State) : Prop :=
  s.host.lastAttemptMs.isSome = true → s.host.lastResult.isSome = true

/-- The host raises `start` only while `ready` (70_reset_and_hazards.md R238). -/
abbrev State.startHonoured (s : State) : Prop :=
  s.start = true → s.phase.ready = true

/-- The host may use `frame40` as a measurement (70_reset_and_hazards.md R240). -/
abbrev State.resultUsable (s : State) : Prop :=
  s.phase.busy = false ∧ s.frameValid = true

/-- Two reads are spaced as the sensor needs (70_reset_and_hazards.md R237). -/
abbrev wellSpaced (previous now : Nat) : Prop :=
  previous + minIntervalMs ≤ now

/-- Every symbol's pulses, in samples, tell 0 from 1 and do not time out (70_reset_and_hazards.md R245,
42_bit_capture.md R151). -/
abbrev goodLengths (p : Params) (a c0 c1 : Nat) : Prop :=
  1 ≤ c0 ∧ c0 < a ∧ a < c1 ∧ c1 ≤ p.cycleBudget - 1

end Sys2Proof.Machine
end

