-- ==== Sys2Proof/Certificates/Slice0/Obligations.lean ====
section
/-!
DEFINITION. The statements for the provers. Each docstring names the rules of spec/ a statement rests on.
-/

open Sys2Proof Sys2Proof.Machine

-- ---- words, fetch and the step -----------------------------------------------------------------------------

/-- Words written out from 30_encoding.md R68 and R69 decode to the operations they stand for. -/
def Obligations.WrittenOutWordsDecode : Prop :=
  decode (.cmd 0b10#2) = .ok (.reset false) ∧ decode (.cmd 0b11#2) = .ok (.reset true)
  ∧ decode (.cmd 0b01#2) = .ok .start ∧ decode (.cmd 0b00#2) = .ok .nop
  ∧ decode (.phase 0b0000#4) = .ok .idle ∧ decode (.phase 0b0001#4) = .ok .settle
  ∧ decode (.phase 0b0010#4) = .ok .reqLow ∧ decode (.phase 0b0011#4) = .ok .reqHigh
  ∧ decode (.phase 0b0100#4) = .ok .ackLow ∧ decode (.phase 0b0101#4) = .ok .ackHigh
  ∧ decode (.phase 0b0110#4) = .ok .bitLow ∧ decode (.phase 0b0111#4) = .ok .bitHigh
  ∧ decode (.phase 0b1000#4) = .ok .checksum
  ∧ decode (.subop 0b0100#4) = .ok (.measure .acknowledge .low)
  ∧ decode (.subop 0b0111#4) = .ok (.measure .bitSymbol .high)

/-- Decoding and encoding agree both ways, and exactly the reserved words are refused (30_encoding.md R68 to R70). -/
def Obligations.DecodeAndEncodeAgree : Prop :=
  (∀ (w : CodeWord) (i : Instr), decode w = .ok i ↔ (i.wf = true ∧ encode i = w))
  ∧ ∀ w : CodeWord, (∃ e, decode w = .error e) ↔ w.wf = false

/-- The word a tick runs is the RESET command when `rst` is raised and the phase code otherwise (10_state.md R30), and
when it decodes to `i` the step is `exec i`, after which this tick's inputs are gone. -/
def Obligations.StepRunsTheDecodedOperation : Prop :=
  (∀ (s : State) (i : Instr), decode s.fetchWord = .ok i →
    step s = thenAdvance (exec i s)
    ∧ ∀ t, exec i s = .next t → step s = .next { t with inputs := t.inputs.tail, tick := t.tick + 1 })
  ∧ (∀ s : State, s.rst = true → decode s.fetchWord = .ok (.reset s.start))
  ∧ (∀ s : State, s.rst = false → decode s.fetchWord = .ok s.phase.instr)

/-- Read by its command word `{rst, start}` a tick is the same tick: RESET, START or NOP as 30_encoding.md R69 decodes
it. While busy, START and NOP leave the tick to the phase's operation (the model's reading, log 10). -/
def Obligations.CommandWordSelectsTheSameTick : Prop :=
  (∀ (s : State) (i : Instr), decode s.commandWord = .ok i → step s = thenAdvance (exec i s))
  ∧ ∀ s : State, s.phase ≠ .idle → exec .start s = exec s.phase.instr s ∧ exec .nop s = exec s.phase.instr s

/-- At every tick, in every state and for all inputs, exactly one step is taken: the block never stops
(10_state.md R30, 60_exceptions.md R213), and every one of the thirteen operations completes in every state.
No tick touches the parameters and the host's state, which are constant between resets and outside the block (00_scope.md
R9, 10_state.md R27); that a RESET tick leaves them too is the model's choice (log 12), and the fields `inputs` and `tick`
are the model's own (log 1). -/
def Obligations.EveryTickTakesOneStep : Prop :=
  (∀ s : State, ∃ t, step s = .next t
    ∧ t.params = s.params ∧ t.host = s.host ∧ t.inputs = s.inputs.tail ∧ t.tick = s.tick + 1)
  ∧ ∀ (i : Instr) (s : State), ∃ t, exec i s = .next t
    ∧ t.params = s.params ∧ t.host = s.host ∧ t.inputs = s.inputs ∧ t.tick = s.tick

-- ---- reset -------------------------------------------------------------------------------------------------

/-- The state after reset (70_reset_and_hazards.md R231), with the outputs it gives. -/
def Obligations.ResetStateHasTheStatedValues : Prop :=
  State.reset.phase = .idle ∧ State.reset.bitIdx = 0 ∧ State.reset.timer = 0 ∧ State.reset.cnt = 0
  ∧ State.reset.refCnt = 0 ∧ State.reset.sh = 0#40 ∧ State.reset.frame40 = 0#40 ∧ State.reset.frameValid = false
  ∧ State.reset.status = .none
  ∧ State.reset.outputs = { ready := true, busy := false, crit := false, lineOe := false, lineO := .high,
                            status := 0#3, frameValid := false, frame := 0#40 }
  ∧ State.reset.params.wf
  ∧ State.reset.host.lastAttemptMs = none ∧ State.reset.host.lastResult = none

/-- RESET clears all nine elements whatever the phase, `start` and the line are, and overrides every other step of its
tick, a failure included (70_reset_and_hazards.md R230, R232, 60_exceptions.md R208). That a RESET leaves the parameters, the
host's ReadState and the coming inputs as they are is the model's reading (log 12), from 10_state.md R10 and R27. -/
def Obligations.ResetClearsEverythingInAnyPhase : Prop :=
  (∀ (s : State) (b : Bool), exec (.reset b) s = .next { s with
      phase := .idle, bitIdx := 0, timer := 0, cnt := 0, refCnt := 0, sh := 0#40,
      frame40 := 0#40, frameValid := false, status := .none })
  ∧ ∀ s : State, s.rst = true → step s = .next { s with
      phase := .idle, bitIdx := 0, timer := 0, cnt := 0, refCnt := 0, sh := 0#40,
      frame40 := 0#40, frameValid := false, status := .none,
      inputs := s.inputs.tail, tick := s.tick + 1 }

-- ---- commands and the idle phase ---------------------------------------------------------------------------

/-- START, accepted in IDLE whatever `status` holds and whatever the time since the last read: all nine elements are
written, `busy` rises and `ready` falls (41_sequencer.md R110). -/
def Obligations.StartInIdleClearsAndBegins : Prop :=
  ∀ s : State, s.phase = .idle →
    (exec .start s = .next { s with
      phase := .settle, bitIdx := 0, timer := 0, cnt := 0, refCnt := 0, sh := 0#40,
      frame40 := 0#40, frameValid := false, status := .none })
    ∧ (s.rst = false → s.start = true → step s = .next { s with
      phase := .settle, bitIdx := 0, timer := 0, cnt := 0, refCnt := 0, sh := 0#40,
      frame40 := 0#40, frameValid := false, status := .none,
      inputs := s.inputs.tail, tick := s.tick + 1 })
    ∧ s.outputs.busy = false ∧ s.outputs.ready = true
    ∧ ∀ t, exec .start s = .next t → t.outputs.busy = true ∧ t.outputs.ready = false ∧ t.outputs.frameValid = false

/-- NOP and an unstarted IDLE change nothing, and the line stays released; while busy a START is not read: the step is the
same whatever `start` is (41_sequencer.md R111). -/
def Obligations.NopRestsAndStartWhileBusyIsIgnored : Prop :=
  (∀ s : State, s.phase = .idle → exec .nop s = .next s)
  ∧ (∀ s : State, s.phase = .idle → s.start = false → exec .idle s = .next s)
  ∧ (∀ s : State, s.phase = .idle → s.rst = false → s.start = false →
      step s = .next { s with inputs := s.inputs.tail, tick := s.tick + 1 })
  ∧ (∀ s : State, s.phase = .idle → s.outputs.lineOe = false)
  ∧ ∀ (s : State) (b c : Bool) (l : Level), s.phase ≠ .idle →
      step (s.withInput { rst := false, start := b, line := l })
        = step (s.withInput { rst := false, start := c, line := l })

/-- The IDLE operation waits for `start`, and performs START when it is raised (30_encoding.md R68). -/
def Obligations.IdleWaitsForStart : Prop :=
  ∀ s : State,
    (s.start = true → exec .idle s = .next { s with
      phase := .settle, bitIdx := 0, timer := 0, cnt := 0, refCnt := 0, sh := 0#40,
      frame40 := 0#40, frameValid := false, status := .none })
    ∧ (s.start = false → exec .idle s = .next s)

-- ---- the request -------------------------------------------------------------------------------------------

/-- SETTLE, one tick: `timer` counts, or is cleared and control passes to REQ_LOW; the line is released and `crit` low
(41_sequencer.md R112, R123). -/
def Obligations.SettleTickCountsThenLeaves : Prop :=
  (∀ s : State, s.timer + 1 < s.params.tSettle → exec .settle s = .next { s with timer := s.timer + 1 })
  ∧ (∀ s : State, s.timer = s.params.tSettle - 1 → exec .settle s = .next { s with timer := 0, phase := .reqLow })
  ∧ Phase.settle.lineOe = false ∧ Phase.settle.crit = false

/-- REQ_LOW, one tick; the line is driven low and `crit` is high (41_sequencer.md R113, R123). -/
def Obligations.ReqLowTickCountsThenLeaves : Prop :=
  (∀ s : State, s.timer + 1 < s.params.tReqLow → exec .reqLow s = .next { s with timer := s.timer + 1 })
  ∧ (∀ s : State, s.timer = s.params.tReqLow - 1 → exec .reqLow s = .next { s with timer := 0, phase := .reqHigh })
  ∧ Phase.reqLow.lineOe = true ∧ Phase.reqLow.lineO = .low ∧ Phase.reqLow.crit = true

/-- REQ_HIGH, one tick; the tick that leaves it clears `cnt` too; the line is driven high, and released in ACK_LOW
(41_sequencer.md R114, R115, R123). -/
def Obligations.ReqHighTickCountsThenLeaves : Prop :=
  (∀ s : State, s.timer + 1 < s.params.tReqHigh → exec .reqHigh s = .next { s with timer := s.timer + 1 })
  ∧ (∀ s : State, s.timer = s.params.tReqHigh - 1 →
      exec .reqHigh s = .next { s with timer := 0, cnt := 0, phase := .ackLow })
  ∧ Phase.reqHigh.lineOe = true ∧ Phase.reqHigh.lineO = .high ∧ Phase.reqHigh.crit = true
  ∧ Phase.ackLow.lineOe = false

/-- A timed phase of length `N` entered with `timer = 0` is held at exactly `N` consecutive ticks, with the outputs of
its phase, and leaves `timer` at 0, as START does (41_sequencer.md R123). -/
def Obligations.TimedPhaseLastsItsLength : Prop :=
  (∀ (s : State) (N : Nat), s.params.wf → s.phase.timedLength s.params = some N → s.timer = 0 → s.NoReset N →
    (∀ k, k < N → ∃ t, runTicks k s = .next t ∧ t.phase = s.phase ∧ t.timer = k ∧ t.lineDrive = s.lineDrive)
    ∧ ∃ t, runTicks N s = .next t ∧ t.phase = s.phase.successor s.bitIdx ∧ t.timer = 0)
  ∧ ∀ s t : State, s.phase = .idle → exec .start s = .next t → t.timer = 0

/-- With START accepted at tick 0 the first sample is taken at tick `t_listen`, in ACK_LOW, of a block that START
cleared; before it no phase samples the line (41_sequencer.md R119). -/
def Obligations.FirstSampleIsAtTListen : Prop :=
  ∀ s : State, s.params.wf → s.AcceptsStart → s.NoReset s.params.tListen →
    s.params.tListen = 1 + s.params.tSettle + s.params.tReqLow + s.params.tReqHigh
    ∧ (∀ k, k < s.params.tListen → ∃ t, runTicks k s = .next t ∧ t.phase.measures = false)
    ∧ runTicks s.params.tListen s = .next { s with
        phase := .ackLow, bitIdx := 0, timer := 0, cnt := 0, refCnt := 0, sh := 0#40,
        frame40 := 0#40, frameValid := false, status := .none,
        inputs := s.inputs.drop s.params.tListen, tick := s.tick + s.params.tListen }

-- ---- measurements ------------------------------------------------------------------------------------------

/-- MEASURE, one tick at expected level `l`: a matching sample is counted, or is the timeout when it is the last of the
budget; another sample ends the measurement with the count. Only `cnt` is written (40_pulse_timer.md R91).
As an operation on its own it has the state effect and no result (the reading of log 11). -/
def Obligations.MeasureTickWritesOnlyTheCount : Prop :=
  (∀ (s : State) (k : PulseKind) (l : Level), s.lineSample = l → s.cnt + 1 < s.params.cycleBudget →
    measureTick l s = (none, { s with cnt := s.cnt + 1 })
    ∧ exec (.measure k l) s = .next { s with cnt := s.cnt + 1 })
  ∧ (∀ (s : State) (k : PulseKind) (l : Level), s.lineSample = l → s.cnt = s.params.cycleBudget - 1 →
    measureTick l s = (some .timeout, s) ∧ exec (.measure k l) s = .next s)
  ∧ ∀ (s : State) (k : PulseKind) (l : Level), s.lineSample ≠ l →
    measureTick l s = (some (.count s.cnt), { s with cnt := 0 })
    ∧ exec (.measure k l) s = .next { s with cnt := 0 }

/-- `n` matching samples, `n` at most `CYCLE_BUDGET - 1`, then one at the other level: the measurement runs `n` ticks in
its phase with `cnt` following, ends at the tick of sample `n + 1` with `Count(n)`, and the next phase's first sample is
the one after it (40_pulse_timer.md R92, R94). -/
def Obligations.MeasurementCountsMatchingSamples : Prop :=
  ∀ (s : State) (n : Nat) (pulse rest : List Inputs) (x : Inputs),
    s.phase.measures = true → s.cnt = 0 → n ≤ s.params.cycleBudget - 1 →
    s.inputs = pulse ++ x :: rest → pulse.length = n →
    (∀ y ∈ pulse, y.rst = false ∧ y.line = s.phase.expectedLevel) →
    x.rst = false → x.line ≠ s.phase.expectedLevel →
    (∀ k, k ≤ n → runTicks k s = .next { s with cnt := k, inputs := s.inputs.drop k, tick := s.tick + k })
    ∧ measureTick s.phase.expectedLevel { s with cnt := n, inputs := x :: rest, tick := s.tick + n }
        = (some (.count n), { s with cnt := 0, inputs := x :: rest, tick := s.tick + n })
    ∧ ∃ t, runTicks (n + 1) s = .next t ∧ t.phase = s.phase.successor s.bitIdx ∧ t.cnt = 0 ∧ t.inputs = rest

/-- The first `CYCLE_BUDGET` samples of a measurement all matching: it ends at the tick of the last of them in the
failure of its phase, `cnt` left at `CYCLE_BUDGET - 1` and nothing else written (40_pulse_timer.md R93,
60_exceptions.md R201 to R203, R210). -/
def Obligations.MeasurementTimesOutAtTheBudget : Prop :=
  ∀ (s : State) (f : Failure), s.params.wf → s.phase.timeoutFailure = some f → s.cnt = 0 →
    s.NoReset s.params.cycleBudget →
    (∀ y ∈ s.inputs.take s.params.cycleBudget, y.line = s.phase.expectedLevel) →
    (∀ k, k < s.params.cycleBudget → runTicks k s = .next { s with
        cnt := k, inputs := s.inputs.drop k, tick := s.tick + k })
    ∧ (∀ k, k + 1 = s.params.cycleBudget →
      (measureTick s.phase.expectedLevel { s with
        cnt := k, inputs := s.inputs.drop k, tick := s.tick + k }).1 = some .timeout)
    ∧ runTicks s.params.cycleBudget s = .next { s with
        cnt := s.params.cycleBudget - 1, status := .failed f, phase := .idle,
        inputs := s.inputs.drop s.params.cycleBudget, tick := s.tick + s.params.cycleBudget }

/-- ACK_LOW, one tick (41_sequencer.md R116). -/
def Obligations.AckLowTick : Prop :=
  (∀ s : State, s.lineSample = .low → s.cnt + 1 < s.params.cycleBudget →
    exec .ackLow s = .next { s with cnt := s.cnt + 1 })
  ∧ (∀ s : State, s.lineSample = .low → s.cnt = s.params.cycleBudget - 1 →
    exec .ackLow s = .next { s with status := .failed .startLowTimeout, phase := .idle })
  ∧ ∀ s : State, s.lineSample = .high → exec .ackLow s = .next { s with cnt := 0, phase := .ackHigh }

/-- ACK_HIGH, one tick (41_sequencer.md R117). -/
def Obligations.AckHighTick : Prop :=
  (∀ s : State, s.lineSample = .high → s.cnt + 1 < s.params.cycleBudget →
    exec .ackHigh s = .next { s with cnt := s.cnt + 1 })
  ∧ (∀ s : State, s.lineSample = .high → s.cnt = s.params.cycleBudget - 1 →
    exec .ackHigh s = .next { s with status := .failed .startHighTimeout, phase := .idle })
  ∧ ∀ s : State, s.lineSample = .low → exec .ackHigh s = .next { s with cnt := 0, phase := .bitLow, bitIdx := 0 }

/-- BIT_LOW, one tick: the reference count is kept (42_bit_capture.md R140). -/
def Obligations.BitLowTick : Prop :=
  (∀ s : State, s.lineSample = .low → s.cnt + 1 < s.params.cycleBudget →
    exec .bitLow s = .next { s with cnt := s.cnt + 1 })
  ∧ (∀ s : State, s.lineSample = .low → s.cnt = s.params.cycleBudget - 1 →
    exec .bitLow s = .next { s with status := .failed .bitTimeout, phase := .idle })
  ∧ ∀ s : State, s.lineSample = .high →
    exec .bitLow s = .next { s with cnt := 0, refCnt := s.cnt, phase := .bitHigh }

/-- BIT_HIGH, one tick: the bit is 1 exactly when the count exceeds the reference, a tie is 0, the bit is shifted in,
and position 39 passes to CHECKSUM (42_bit_capture.md R141 to R143, R145). -/
def Obligations.BitHighTick : Prop :=
  (∀ s : State, s.lineSample = .high → s.cnt + 1 < s.params.cycleBudget →
    exec .bitHigh s = .next { s with cnt := s.cnt + 1 })
  ∧ (∀ s : State, s.lineSample = .high → s.cnt = s.params.cycleBudget - 1 →
    exec .bitHigh s = .next { s with status := .failed .bitTimeout, phase := .idle })
  ∧ (∀ s : State, s.lineSample = .low → s.bitIdx.val < 39 → s.refCnt < s.cnt →
    exec .bitHigh s = .next { s with
      cnt := 0, sh := shiftIn s.sh true, bitIdx := s.bitIdx + 1, phase := .bitLow })
  ∧ (∀ s : State, s.lineSample = .low → s.bitIdx.val < 39 → s.cnt ≤ s.refCnt →
    exec .bitHigh s = .next { s with
      cnt := 0, sh := shiftIn s.sh false, bitIdx := s.bitIdx + 1, phase := .bitLow })
  ∧ (∀ s : State, s.lineSample = .low → s.bitIdx = 39 → s.refCnt < s.cnt →
    exec .bitHigh s = .next { s with cnt := 0, sh := shiftIn s.sh true, phase := .checksum })
  ∧ ∀ s : State, s.lineSample = .low → s.bitIdx = 39 → s.cnt ≤ s.refCnt →
    exec .bitHigh s = .next { s with cnt := 0, sh := shiftIn s.sh false, phase := .checksum }

/-- Shifting a bit in: the bits move up one place, bit 39 is dropped, the new bit is bit 0 (42_bit_capture.md R144). -/
def Obligations.ShiftMovesBitsUpOnePlace : Prop :=
  ∀ (sh : Frame) (b : Bool), (shiftIn sh b).getLsbD 0 = b
    ∧ ∀ i, i < 39 → (shiftIn sh b).getLsbD (i + 1) = sh.getLsbD i

/-- A low pulse of `a` samples and a high pulse of `c`, each begun one sample early by the measurement before, count `a - 1`
and `c - 1` and decide the bit 1 exactly when `c > a` (42_bit_capture.md R147). -/
def Obligations.SymbolDecidesByPulseLength : Prop :=
  ∀ (s : State) (a c : Nat) (low high rest : List Inputs) (x : Inputs),
    s.phase = .bitLow → s.cnt = 0 → 1 ≤ a → a ≤ s.params.cycleBudget → 1 ≤ c → c ≤ s.params.cycleBudget →
    s.inputs = low ++ high ++ x :: rest → low.length = a - 1 → high.length = c →
    (∀ y ∈ low, y.rst = false ∧ y.line = .low) → (∀ y ∈ high, y.rst = false ∧ y.line = .high) →
    x.rst = false → x.line = .low →
    (∃ u, runTicks (a + c - 1) s = .next u ∧ u.phase = .bitHigh ∧ u.refCnt = a - 1 ∧ u.cnt = c - 1)
    ∧ ∃ t, runTicks (a + c) s = .next t
      ∧ t.refCnt = a - 1 ∧ t.cnt = 0 ∧ t.sh = shiftIn s.sh (decide (a < c)) ∧ t.inputs = rest
      ∧ (s.bitIdx = 39 → t.phase = .checksum ∧ t.bitIdx = 39)
      ∧ (s.bitIdx ≠ 39 → t.phase = .bitLow ∧ t.bitIdx.val = s.bitIdx.val + 1)

-- ---- validation --------------------------------------------------------------------------------------------

/-- CHECKSUM, one tick: `frame40` is loaded in both outcomes, OK exactly on equal sums (43_frame_validator.md R160,
R161). -/
def Obligations.ChecksumTick : Prop :=
  (∀ s : State, SumHolds s.sh →
    exec .checksum s = .next { s with frame40 := s.sh, status := .ok, frameValid := true, phase := .idle })
  ∧ ∀ s : State, ¬ SumHolds s.sh →
    exec .checksum s = .next { s with frame40 := s.sh, status := .failed .checksumMismatch, phase := .idle }

/-- For each choice of the first four bytes exactly one fifth byte passes, and CHECKSUM answers OK on it and
CHECKSUM_MISMATCH on every other (43_frame_validator.md R163). -/
def Obligations.ExactlyOneFifthBytePasses : Prop :=
  ∀ b0 b1 b2 b3 : Byte, ∃ b4 : Byte, b4.toNat = (b0.toNat + b1.toNat + b2.toNat + b3.toNat) % 256 ∧ ∀ (s : State) (c : Byte), s.sh = b0 ++ b1 ++ b2 ++ b3 ++ c →
    ∃ t, exec .checksum s = .next t
      ∧ (c = b4 → t.status = .ok) ∧ (c ≠ b4 → t.status = .failed .checksumMismatch)

/-- Position `i` in arrival order is bit `7 - (i mod 8)` of byte `i / 8` and bit `39 - i` of the packed frame, whose
bytes are `[h_hi, h_lo, t_hi, t_lo, checksum]` from the top (20_memory.md R44 to R46, 30_encoding.md R63). -/
def Obligations.FramePacksArrivalOrder : Prop :=
  (∀ (f : Frame) (i : Nat) (k : Fin 5), i < 40 → i / 8 = k.val →
    (arrivalBits f)[i]? = some ((frameByte f k).getLsbD (7 - i % 8))
    ∧ f.getLsbD (39 - i) = (frameByte f k).getLsbD (7 - i % 8))
  ∧ ∀ f : Frame, f = frameByte f 0 ++ frameByte f 1 ++ frameByte f 2 ++ frameByte f 3 ++ frameByte f 4

-- ---- outputs and failures ----------------------------------------------------------------------------------

/-- The outputs are the stated functions of `phase`, and the result ports show their elements by the codes of
30_encoding.md R67 (10_state.md R17 to R22). -/
def Obligations.OutputsFollowPhaseAndResult : Prop :=
  ∀ s : State,
    (s.outputs.busy = true ↔ s.phase ≠ .idle) ∧ (s.outputs.ready = true ↔ s.phase = .idle)
    ∧ (s.outputs.crit = true ↔ s.phase ∈ [.reqLow, .reqHigh, .ackLow, .ackHigh, .bitLow, .bitHigh])
    ∧ (s.outputs.lineOe = true ↔ s.phase = .reqLow ∨ s.phase = .reqHigh)
    ∧ (s.outputs.lineO = .low ↔ s.phase = .reqLow)
    ∧ s.outputs.frame = s.frame40 ∧ s.outputs.frameValid = s.frameValid
    ∧ (s.status = .none → s.outputs.status = 0#3) ∧ (s.status = .ok → s.outputs.status = 1#3)
    ∧ (s.status = .failed .startLowTimeout → s.outputs.status = 2#3)
    ∧ (s.status = .failed .startHighTimeout → s.outputs.status = 3#3)
    ∧ (s.status = .failed .bitTimeout → s.outputs.status = 4#3)
    ∧ (s.status = .failed .checksumMismatch → s.outputs.status = 5#3)

/-- Entering a timeout failure writes `status` and `phase` and nothing else; `busy` and `crit` fall, `ready` rises, the
line stays released, and with the invariant of R28 the result ports stay 0. Entering CHECKSUM_MISMATCH also loads
`frame40` (60_exceptions.md R210). -/
def Obligations.FailureEntryWritesStatusAndPhase : Prop :=
  (∀ (s : State) (f : Failure), s.ResultInv → s.phase.timeoutFailure = some f →
    s.lineSample = s.phase.expectedLevel → s.cnt = s.params.cycleBudget - 1 →
    exec s.phase.instr s = .next { s with status := .failed f, phase := .idle }
    ∧ s.frame40 = 0#40 ∧ s.frameValid = false
    ∧ s.outputs.busy = true ∧ s.outputs.ready = false ∧ s.outputs.crit = true ∧ s.outputs.lineOe = false
    ∧ ∀ t, exec s.phase.instr s = .next t →
        t.outputs.busy = false ∧ t.outputs.ready = true ∧ t.outputs.crit = false ∧ t.outputs.lineOe = false)
  ∧ ∀ s : State, s.phase = .checksum → ¬ SumHolds s.sh →
    exec s.phase.instr s = .next { s with frame40 := s.sh, status := .failed .checksumMismatch, phase := .idle }

-- ---- whole-machine rules -----------------------------------------------------------------------------------

/-- Control moves only by the table of 41_sequencer.md R118, and RESET overrides it. -/
def Obligations.ControlMovesOnlyByTheTable : Prop :=
  ∀ s t : State, step s = .next t →
    (s.rst = false → t.phase = controlTable s) ∧ (s.rst = true → t.phase = .idle)

/-- Each element is written only by the operations the inventory lists for it: RESET, an accepted START, and the named
phases (10_state.md R10, R12 to R19). -/
def Obligations.ElementsAreWrittenOnlyByTheirOperations : Prop :=
  ∀ s t : State, step s = .next t → s.rst = false → ¬ (s.phase = .idle ∧ s.start = true) →
    (t.bitIdx ≠ s.bitIdx → s.phase = .ackHigh ∨ s.phase = .bitHigh)
    ∧ (t.timer ≠ s.timer → s.phase = .settle ∨ s.phase = .reqLow ∨ s.phase = .reqHigh)
    ∧ (t.cnt ≠ s.cnt → s.phase = .reqHigh ∨ s.phase.measures = true)
    ∧ (t.refCnt ≠ s.refCnt → s.phase = .bitLow)
    ∧ (t.sh ≠ s.sh → s.phase = .bitHigh)
    ∧ (t.frame40 ≠ s.frame40 → s.phase = .checksum)
    ∧ (t.frameValid ≠ s.frameValid → s.phase = .checksum)
    ∧ (t.status ≠ s.status → s.phase = .checksum ∨ s.phase.measures = true)

/-- In a phase that does not measure, the line has no effect on the tick; the block never samples the line while it
drives it (20_memory.md R41, R42). -/
def Obligations.LineIsReadOnlyInMeasuringPhases : Prop :=
  (∀ (s : State) (r b : Bool) (l m : Level), s.phase.measures = false →
    step (s.withInput { rst := r, start := b, line := l }) = step (s.withInput { rst := r, start := b, line := m }))
  ∧ ∀ p : Phase, p.lineOe = true → p.measures = false

/-- `crit` rises only with the last tick of SETTLE and falls only into CHECKSUM, at a timeout failure, or by RESET; and each
of the three, the decision of position 39, a timeout in any measuring phase, and RESET, does leave it 0 (10_state.md R21,
20_memory.md R51 (a)). -/
def Obligations.CritRisesAfterSettleAndIsAlwaysReleased : Prop :=
  ∀ s t : State, step s = .next t →
    (s.outputs.crit = false → t.outputs.crit = true →
      s.phase = .settle ∧ s.timer = s.params.tSettle - 1 ∧ t.phase = .reqLow)
    ∧ (s.outputs.crit = true → t.outputs.crit = false →
      s.rst = true ∨ (s.phase = .bitHigh ∧ t.phase = .checksum)
      ∨ (t.phase = .idle ∧ ∃ f, s.phase.timeoutFailure = some f ∧ t.status = .failed f))
    ∧ (s.rst = true → t.outputs.crit = false)
    ∧ (s.phase = .bitHigh → s.bitIdx = 39 → s.lineSample = .low → t.outputs.crit = false)
    ∧ (s.phase.measures = true → s.lineSample = s.phase.expectedLevel → s.cnt = s.params.cycleBudget - 1 →
      t.outputs.crit = false)

/-- The result appears whole at the tick `busy` falls and at no other tick of a read, and then stays until the next START
or RESET (20_memory.md R49, R51 (b), 60_exceptions.md R212). -/
def Obligations.ResultAppearsExactlyWhenBusyFalls : Prop :=
  ∀ s t : State, s.ResultInv → step s = .next t → s.rst = false →
    (s.outputs.busy = true →
      (t.outputs.busy = false ↔ t.status ≠ .none)
      ∧ (t.outputs.busy = true → t.status = .none ∧ t.frameValid = false ∧ t.frame40 = 0#40))
    ∧ (s.outputs.busy = false → s.start = false →
      t.status = s.status ∧ t.frameValid = s.frameValid ∧ t.frame40 = s.frame40 ∧ t.outputs = s.outputs)

-- ---- invariants --------------------------------------------------------------------------------------------

/-- The state after reset meets every invariant of Safety.lean. -/
def Obligations.ResetMeetsTheInvariants : Prop :=
  State.reset.ResultInv ∧ State.reset.TimerInv ∧ State.reset.CaptureInv ∧ State.reset.WidthInv ∧ State.reset.HostInv

/-- Every tick keeps the invariant of the result registers (10_state.md R28), from every state that has it. -/
def Obligations.StepKeepsTheResultInvariant : Prop :=
  ∀ s t : State, s.ResultInv → step s = .next t → t.ResultInv

/-- Every tick keeps `timer` below the length of its phase, and 0 outside the timed phases (10_state.md R13). -/
def Obligations.StepKeepsTheTimerInvariant : Prop :=
  ∀ s t : State, s.params.wf → s.TimerInv → step s = .next t → t.TimerInv

/-- Every tick keeps the capture registers as their phase has them: clear before the bit loop, `sh` holding no more than
the bits decided, 39 as the last position (10_state.md R12, R14 to R16, 42_bit_capture.md R145). -/
def Obligations.StepKeepsTheCaptureInvariant : Prop :=
  ∀ s t : State, s.ResultInv → s.CaptureInv → step s = .next t → t.CaptureInv

/-- Every tick keeps every counter within its register's width (10_state.md R10, 40_pulse_timer.md R98). -/
def Obligations.StepKeepsTheRegisterWidths : Prop :=
  ∀ s t : State, s.WidthInv → step s = .next t → t.WidthInv

/-- In every state reachable from reset, under all parameters and all inputs, R28 holds (10_state.md R28). -/
def Obligations.ReachableStatesHaveConsistentResults : Prop :=
  ∀ (p : Params) (inputs : List Inputs) (n : Nat) (t : State), p.wf →
    runTicks n { State.reset with params := p, inputs := inputs } = .next t → t.ResultInv

-- ---- whole reads -------------------------------------------------------------------------------------------

/-- Every read ends: within the bound of 70_reset_and_hazards.md R247, for every sequence of line values, `busy` falls
with an outcome in `status`. -/
def Obligations.EveryReadEndsWithinTheBound : Prop :=
  ∀ s : State, s.params.wf → s.AcceptsStart → s.NoReset s.params.readBound →
    s.params.readBound = 1 + s.params.tSettle + s.params.tReqLow + s.params.tReqHigh + 82 * s.params.cycleBudget + 1
    ∧ ∃ n, 2 ≤ n ∧ n ≤ s.params.readBound
      ∧ (∀ k, 1 ≤ k → k < n → ∃ t, runTicks k s = .next t ∧ t.outputs.busy = true ∧ t.status = .none)
      ∧ ∃ t, runTicks n s = .next t ∧ t.outputs.busy = false ∧ t.status ≠ .none

/-- A line that is high from `t_listen` on: ACK_LOW ends at tick `t_listen` with `Count(0)`, and START_HIGH_TIMEOUT is
raised at tick `t_listen + CYCLE_BUDGET` (70_reset_and_hazards.md R243). -/
def Obligations.SilentLineFailsWithStartHighTimeout : Prop :=
  ∀ s : State, s.params.wf → s.AcceptsStart → s.NoReset (s.params.tListen + s.params.cycleBudget + 1) →
    (∀ x ∈ (s.inputs.take (s.params.tListen + s.params.cycleBudget + 1)).drop s.params.tListen, x.line = .high) →
    (∃ t, runTicks s.params.tListen s = .next t ∧ t.phase = .ackLow
      ∧ (measureTick .low t).1 = some (.count 0))
    ∧ (∀ k, 1 ≤ k → k ≤ s.params.cycleBudget → ∃ t, runTicks (s.params.tListen + k) s = .next t ∧ t.phase = .ackHigh)
    ∧ ∃ t, runTicks (s.params.tListen + s.params.cycleBudget + 1) s = .next t
      ∧ t.phase = .idle ∧ t.status = .failed .startHighTimeout ∧ t.frameValid = false ∧ t.frame40 = 0#40
      ∧ t.outputs.busy = false

/-- A line that is low from `t_listen` on: START_LOW_TIMEOUT at tick `t_listen + CYCLE_BUDGET - 1`
(70_reset_and_hazards.md R244). -/
def Obligations.StuckLowLineFailsWithStartLowTimeout : Prop :=
  ∀ s : State, s.params.wf → s.AcceptsStart → s.NoReset (s.params.tListen + s.params.cycleBudget) →
    (∀ x ∈ (s.inputs.take (s.params.tListen + s.params.cycleBudget)).drop s.params.tListen, x.line = .low) →
    (∀ k, k < s.params.cycleBudget → ∃ t, runTicks (s.params.tListen + k) s = .next t ∧ t.phase = .ackLow)
    ∧ ∃ t, runTicks (s.params.tListen + s.params.cycleBudget) s = .next t
      ∧ t.phase = .idle ∧ t.status = .failed .startLowTimeout ∧ t.frameValid = false ∧ t.frame40 = 0#40
      ∧ t.outputs.busy = false

/-- The round trip: an acknowledge, forty symbols whose data pulses are longer than their references exactly at the ones
of `f`, every pulse within the budget, and one closing low sample are decoded to `f`; the next tick delivers it
(42_bit_capture.md R151, with reference and data lengths free at every position, R147, 70 R245). -/
def Obligations.WaveformOfAFrameDecodesToIt : Prop :=
  ∀ (s : State) (f : Frame) (ackLow ackHigh : Nat) (symbols : List (Nat × Nat)) (request response rest : List Inputs),
    s.params.wf → s.AcceptsStart →
    ackLow ≤ s.params.cycleBudget - 1 → 1 ≤ ackHigh → ackHigh ≤ s.params.cycleBudget - 1 →
    (∀ p ∈ symbols, 1 ≤ p.1 ∧ p.1 ≤ s.params.cycleBudget - 1 ∧ 1 ≤ p.2 ∧ p.2 ≤ s.params.cycleBudget - 1) →
    symbols.map (fun p => decide (p.1 < p.2)) = arrivalBits f →
    s.inputs = request ++ response ++ rest → request.length = s.params.tListen →
    (∀ x ∈ request ++ response, x.rst = false) →
    response.map Inputs.line = samples (responseRuns ackLow ackHigh symbols) →
    (∃ t, runTicks (request.length + response.length) s = .next t
      ∧ t.phase = .checksum ∧ t.sh = f ∧ t.frame40 = 0#40 ∧ t.inputs = rest)
    ∧ (∀ x xs, rest = x :: xs → x.rst = false → ∃ t, runTicks (request.length + response.length + 1) s = .next t
      ∧ t.phase = .idle ∧ t.frame40 = f ∧ (SumHolds f → t.status = .ok ∧ t.frameValid = true)
      ∧ (¬ SumHolds f → t.status = .failed .checksumMismatch ∧ t.frameValid = false))

/-- Two accepted reads with equal parameters and equal line samples from `t_listen` on agree on the nine elements at every
tick up to the one that ends them, whatever the blocks held before, whatever the line showed earlier, and whatever `start`
does meanwhile: the same result after the same number of ticks (42_bit_capture.md R152). -/
def Obligations.ReadsOfEqualSamplesAreEqual : Prop :=
  ∀ (s t : State) (n : Nat), s.params.wf → t.params = s.params → s.AcceptsStart → t.AcceptsStart →
    s.NoReset n → t.NoReset n → 1 ≤ n →
    (∀ (i : Nat) (x y : Inputs), i < n → s.params.tListen ≤ i → s.inputs[i]? = some x → t.inputs[i]? = some y →
      x.line = y.line) →
    (∀ k, 1 ≤ k → k < n → ∃ u, runTicks k s = .next u ∧ u.phase ≠ .idle) →
    ∃ u v, runTicks n s = .next u ∧ runTicks n t = .next v ∧ SameBlock u v

-- ---- parameters --------------------------------------------------------------------------------------------

/-- The register widths are the smallest that hold their values (00_scope.md R9, 92 D18). -/
def Obligations.RegisterWidthsAreTheLeast : Prop :=
  ∀ p : Params,
    (1 ≤ p.cntW ∧ p.cycleBudget ≤ 2 ^ p.cntW ∧ ∀ w, 1 ≤ w → p.cycleBudget ≤ 2 ^ w → p.cntW ≤ w)
    ∧ (1 ≤ p.timerW ∧ max p.tSettle (max p.tReqLow p.tReqHigh) ≤ 2 ^ p.timerW
      ∧ ∀ w, 1 ≤ w → max p.tSettle (max p.tReqLow p.tReqHigh) ≤ 2 ^ w → p.timerW ≤ w)

/-- The default lengths are the least whole numbers of ticks that reach 1 ms and 40 µs, at every positive rational tick rate
(00_scope.md R9; that the rate is rational is the model's choice, log 2). -/
def Obligations.DefaultLengthsRoundUp : Prop :=
  ∀ (pin settle n : Nat) (f : Rat),
    ((Params.defaults pin f settle).cycleBudget ≤ n ↔ f / 1000 ≤ n)
    ∧ ((Params.defaults pin f settle).tReqLow ≤ n ↔ f * (1 / 1000) ≤ n)
    ∧ ((Params.defaults pin f settle).tReqHigh ≤ n ↔ f * (40 / 1000000) ≤ n)
    ∧ (0 < f → 1 ≤ settle → (Params.defaults pin f settle).wf)

-- ---- the host around the block -----------------------------------------------------------------------------

/-- The converter's formulas on the bytes (44_host_software.md R171, R172), its inclusive range and joint validity
(R173, R174): a reading exactly when both fields are in range, both `NotAvailable` otherwise. -/
def Obligations.ConverterAcceptsExactlyTheRange : Prop :=
  ∀ (f : Frame) (h m : Nat) (t : Int),
    h = (frameByte f 0).toNat * 256 + (frameByte f 1).toNat →
    m = ((frameByte f 2).toNat % 128) * 256 + (frameByte f 3).toNat →
    t = (if 128 ≤ (frameByte f 2).toNat then -(m : Int) else (m : Int)) →
    ((-400 ≤ t ∧ t ≤ 800 ∧ h ≤ 1000) →
      convert f = .reading t h
      ∧ (convert f).fields = { temperature := some t, humidity := some (h : Int) })
    ∧ (¬ (-400 ≤ t ∧ t ≤ 800 ∧ h ≤ 1000) →
      convert f = .error .outOfRange ∧ (convert f).fields = { temperature := none, humidity := none })

/-- Within 2000 ms of the last attempt an unforced call returns the last attempt's result and touches nothing; from
2000 ms on, or with no attempt yet, it reads as a forced call does; a failure has neither field (44_host_software.md R180,
R181). -/
def Obligations.EarlyCallsReturnTheLastResult : Prop :=
  (∀ (s : State) (last now : Nat) (r : ReadResult), s.host.lastAttemptMs = some last → s.host.lastResult = some r →
    last ≤ now → now < last + 2000 → hostRead false now s = some (r, s))
  ∧ (∀ (s : State) (last now : Nat), s.host.lastAttemptMs = some last → last + 2000 ≤ now →
    hostRead false now s = hostRead true now s)
  ∧ (∀ (s : State) (now : Nat), s.host.lastAttemptMs = none → hostRead false now s = hostRead true now s)
  ∧ ∀ k : ErrorKind, (ReadResult.error k).fields = { temperature := none, humidity := none }

/-- Every `read` call returns: forced or not, whatever the line does, from every state that meets the invariants; a call
that is not short-circuited records the time of its attempt and its result, which is the failure of `status` or the
converter's verdict on `frame40` (44_host_software.md R178, R179, R182). That the host waits by one poll at every tick, with
both its ports under the call's control, is the model's choice (log 8), not the spec's. -/
def Obligations.EveryReadCallReturns : Prop :=
  ∀ (s : State) (force : Bool) (now : Nat), s.params.wf → s.ResultInv → s.TimerInv → s.HostInv →
    ∃ r t, hostRead force now s = some (r, t) ∧ t.HostInv
      ∧ (tooSoon force now s.host = false →
          t.host.lastAttemptMs = some now ∧ t.host.lastResult = some r ∧ t.phase = .idle
          ∧ (∀ f, t.status = .failed f → r = .error (.block f))
          ∧ (t.status = .ok → r = convert t.frame40) ∧ t.status ≠ .none)

/-- `initialize` fixes the parameters from the tick rate, resets the block and sets ReadState to "infinitely in the past"
(44_host_software.md R183). That the lengths are exactly the defaults of 00_scope.md R9, with the settle delay given, and
that RESET lasts exactly one tick, is the model's choice (log 8), not the spec's. -/
def Obligations.InitializeFixesParametersAndResets : Prop :=
  ∀ (s : State) (pin settle : Nat) (f : Rat), ∃ t, hostInitialize pin f settle s = .next t
    ∧ t.params = Params.defaults pin f settle
    ∧ t.phase = .idle ∧ t.bitIdx = 0 ∧ t.timer = 0 ∧ t.cnt = 0 ∧ t.refCnt = 0 ∧ t.sh = 0#40
    ∧ t.frame40 = 0#40 ∧ t.frameValid = false ∧ t.status = .none
    ∧ t.host = { lastAttemptMs := none, lastResult := none }
end

