-- ==== Sys2Proof/Laws/State.lean ====
section
/-!
SUPPORT. One lemma per field per named update of State, so that no proof unfolds a record update.
-/

namespace Sys2Proof.Machine.State

variable (s : State) (p : Phase) (x : Inputs)

@[simp] theorem clear_params : (s.clear p).params = s.params := rfl
@[simp] theorem clear_phase : (s.clear p).phase = p := rfl
@[simp] theorem clear_bitIdx : (s.clear p).bitIdx = 0 := rfl
@[simp] theorem clear_timer : (s.clear p).timer = 0 := rfl
@[simp] theorem clear_cnt : (s.clear p).cnt = 0 := rfl
@[simp] theorem clear_refCnt : (s.clear p).refCnt = 0 := rfl
@[simp] theorem clear_sh : (s.clear p).sh = 0#40 := rfl
@[simp] theorem clear_frame40 : (s.clear p).frame40 = 0#40 := rfl
@[simp] theorem clear_frameValid : (s.clear p).frameValid = false := rfl
@[simp] theorem clear_status : (s.clear p).status = .none := rfl
@[simp] theorem clear_host : (s.clear p).host = s.host := rfl
@[simp] theorem clear_inputs : (s.clear p).inputs = s.inputs := rfl
@[simp] theorem clear_tick : (s.clear p).tick = s.tick := rfl

@[simp] theorem advance_params : s.advance.params = s.params := rfl
@[simp] theorem advance_phase : s.advance.phase = s.phase := rfl
@[simp] theorem advance_bitIdx : s.advance.bitIdx = s.bitIdx := rfl
@[simp] theorem advance_timer : s.advance.timer = s.timer := rfl
@[simp] theorem advance_cnt : s.advance.cnt = s.cnt := rfl
@[simp] theorem advance_refCnt : s.advance.refCnt = s.refCnt := rfl
@[simp] theorem advance_sh : s.advance.sh = s.sh := rfl
@[simp] theorem advance_frame40 : s.advance.frame40 = s.frame40 := rfl
@[simp] theorem advance_frameValid : s.advance.frameValid = s.frameValid := rfl
@[simp] theorem advance_status : s.advance.status = s.status := rfl
@[simp] theorem advance_host : s.advance.host = s.host := rfl
@[simp] theorem advance_inputs : s.advance.inputs = s.inputs.tail := rfl
@[simp] theorem advance_tick : s.advance.tick = s.tick + 1 := rfl

@[simp] theorem raise_params (f : Failure) : (raiseFailure f s).params = s.params := rfl
@[simp] theorem raise_phase (f : Failure) : (raiseFailure f s).phase = .idle := rfl
@[simp] theorem raise_bitIdx (f : Failure) : (raiseFailure f s).bitIdx = s.bitIdx := rfl
@[simp] theorem raise_timer (f : Failure) : (raiseFailure f s).timer = s.timer := rfl
@[simp] theorem raise_cnt (f : Failure) : (raiseFailure f s).cnt = s.cnt := rfl
@[simp] theorem raise_refCnt (f : Failure) : (raiseFailure f s).refCnt = s.refCnt := rfl
@[simp] theorem raise_sh (f : Failure) : (raiseFailure f s).sh = s.sh := rfl
@[simp] theorem raise_frame40 (f : Failure) : (raiseFailure f s).frame40 = s.frame40 := rfl
@[simp] theorem raise_frameValid (f : Failure) : (raiseFailure f s).frameValid = s.frameValid := rfl
@[simp] theorem raise_status (f : Failure) : (raiseFailure f s).status = .failed f := rfl
@[simp] theorem raise_host (f : Failure) : (raiseFailure f s).host = s.host := rfl
@[simp] theorem raise_inputs (f : Failure) : (raiseFailure f s).inputs = s.inputs := rfl
@[simp] theorem raise_tick (f : Failure) : (raiseFailure f s).tick = s.tick := rfl

@[simp] theorem withInput_params : (s.withInput x).params = s.params := rfl
@[simp] theorem withInput_phase : (s.withInput x).phase = s.phase := rfl
@[simp] theorem withInput_bitIdx : (s.withInput x).bitIdx = s.bitIdx := rfl
@[simp] theorem withInput_timer : (s.withInput x).timer = s.timer := rfl
@[simp] theorem withInput_cnt : (s.withInput x).cnt = s.cnt := rfl
@[simp] theorem withInput_refCnt : (s.withInput x).refCnt = s.refCnt := rfl
@[simp] theorem withInput_sh : (s.withInput x).sh = s.sh := rfl
@[simp] theorem withInput_frame40 : (s.withInput x).frame40 = s.frame40 := rfl
@[simp] theorem withInput_frameValid : (s.withInput x).frameValid = s.frameValid := rfl
@[simp] theorem withInput_status : (s.withInput x).status = s.status := rfl
@[simp] theorem withInput_host : (s.withInput x).host = s.host := rfl
@[simp] theorem withInput_tick : (s.withInput x).tick = s.tick := rfl
@[simp] theorem withInput_inputs : (s.withInput x).inputs = x :: s.inputs.tail := rfl
@[simp] theorem withInput_input : (s.withInput x).input = x := rfl
@[simp] theorem withInput_rst : (s.withInput x).rst = x.rst := rfl
@[simp] theorem withInput_start : (s.withInput x).start = x.start := rfl
@[simp] theorem withInput_lineSample : (s.withInput x).lineSample = x.line := rfl

/-- The listed input of this tick is the input. -/
theorem input_of_cons {s : State} {xs : List Inputs} (h : s.inputs = x :: xs) : s.input = x := by
  simp [State.input, h]

end Sys2Proof.Machine.State
end

