-- ==== Sys2Proof/Laws/Ops.lean ====
section
/-!
SUPPORT. What the shared operations can do, said once: widths, a timed tick, a measurement tick, the checksum.
-/

namespace Sys2Proof

/-- The width found holds `n` values. -/
theorem le_two_pow_bitsFor (n : Nat) : n ≤ 2 ^ bitsFor n := by
  have h := Nat.lt_log2_self (n := n - 1)
  unfold bitsFor
  omega

/-- The width found is at least one bit. -/
theorem one_le_bitsFor (n : Nat) : 1 ≤ bitsFor n := by
  simp [bitsFor]

/-- The least whole number of ticks that reaches `rate * a / b`. -/
theorem ceilTicks_le_iff (rate : Rat) (a b n : Nat) (hb : 0 < b) : ceilTicks rate a b ≤ n ↔ rate * a ≤ n * b := by
  have hd : 0 < rate.den * b := Nat.mul_pos rate.den_pos hb
  have hc : ceilTicks rate a b ≤ n ↔ rate.num.toNat * a ≤ n * (rate.den * b) := by
    rw [ceilTicks, ceilDiv, Nat.div_le_iff_le_mul hd]
    omega
  have hi : rate.num.toNat * a ≤ n * (rate.den * b) ↔ rate.num * a ≤ n * (rate.den * b) := by
    obtain h | h := le_total 0 rate.num
    · obtain ⟨k, hk⟩ := Int.eq_ofNat_of_zero_le h
      rw [hk, Int.toNat_natCast]
      exact_mod_cast Iff.rfl
    · rw [Int.toNat_of_nonpos h]
      refine iff_of_true (by simp) (le_trans (mul_nonpos_of_nonpos_of_nonneg h (by positivity)) (by positivity))
  have hq : (rate.den : Rat) * rate = rate.num := Rat.den_mul_eq_num rate
  have hdp : (0 : Rat) < rate.den := by exact_mod_cast rate.den_pos
  have hr : rate * a ≤ n * b ↔ (rate.num : Rat) * a ≤ n * (rate.den * b) := by
    rw [← mul_le_mul_iff_right₀ hdp, ← mul_assoc (rate.den : Rat) rate, hq, mul_left_comm (rate.den : Rat)]
  rw [hc, hi, hr]
  exact_mod_cast Iff.rfl

/-- A positive rate takes at least one tick. -/
theorem one_le_ceilTicks {rate : Rat} {a b : Nat} (h : 0 < rate) (ha : 0 < a) (hb : 0 < b) : 1 ≤ ceilTicks rate a b := by
  by_contra hc
  have := (ceilTicks_le_iff rate a b 0 hb).mp (by omega)
  have hp : 0 < rate * a := mul_pos h (by exact_mod_cast ha)
  simp at this
  linarith

/-- The parameters after reset are legal, whatever the open values are (00_scope.md R9). -/
theorem Config.params_wf : Config.params.wf := by
  refine ⟨?_, by simp [Config.params], by simp [Config.params], by simp [Config.params], by simp [Config.params]⟩
  show 0 < mkRat _ _
  rw [Rat.mkRat_eq_div]
  positivity

theorem Params.cycleBudget_le (p : Params) : p.cycleBudget ≤ 2 ^ p.cntW :=
  le_two_pow_bitsFor _

theorem Params.tSettle_le (p : Params) : p.tSettle ≤ 2 ^ p.timerW :=
  le_trans (le_max_left _ _) (le_two_pow_bitsFor _)

theorem Params.tReqLow_le (p : Params) : p.tReqLow ≤ 2 ^ p.timerW :=
  le_trans (le_trans (le_max_left _ _) (le_max_right _ _)) (le_two_pow_bitsFor _)

theorem Params.tReqHigh_le (p : Params) : p.tReqHigh ≤ 2 ^ p.timerW :=
  le_trans (le_trans (le_max_right _ _) (le_max_right _ _)) (le_two_pow_bitsFor _)

namespace Machine

/-- Below a bound that fits the register, an increment is the plain successor. -/
theorem increment_of_lt {w n b : Nat} (hb : b ≤ 2 ^ w) (h : n + 1 < b) : increment w n = n + 1 :=
  Nat.mod_eq_of_lt (by omega)

/-- An increment stays within the register. -/
theorem increment_lt (w n : Nat) : increment w n < 2 ^ w :=
  Nat.mod_lt _ (Nat.two_pow_pos w)

/-- An increment is at most the plain successor. -/
theorem increment_le (w n : Nat) : increment w n ≤ n + 1 :=
  Nat.mod_le _ _

/-- A level that is not the one is the other. -/
theorem Level.eq_other {a b c : Level} (h : a ≠ b) (h' : c ≠ b) : a = c := by
  cases a <;> cases b <;> cases c <;> simp_all

/-- A timed phase on its last tick: the timer is cleared and control moves on. -/
theorem timed_last {n : Nat} {next : Phase} {s : State} (h : s.timer = n - 1) :
    timed n next s = { s with timer := 0, phase := next } := by
  simp [timed, h]

/-- A timed phase before its last tick counts one tick. -/
theorem timed_more {n : Nat} {next : Phase} {s : State} (hn : n ≤ 2 ^ s.params.timerW) (h : s.timer + 1 < n) :
    timed n next s = { s with timer := s.timer + 1 } := by
  have : s.timer ≠ n - 1 := by omega
  simp [timed, this, increment_of_lt hn h]

/-- Everything a timed tick can do. -/
theorem timed_cases (n : Nat) (next : Phase) (s : State) :
    (s.timer = n - 1 ∧ timed n next s = { s with timer := 0, phase := next })
    ∨ (s.timer ≠ n - 1 ∧ timed n next s = { s with timer := increment s.params.timerW s.timer }) := by
  by_cases h : s.timer = n - 1
  · exact .inl ⟨h, timed_last h⟩
  · exact .inr ⟨h, by simp [timed, h]⟩

/-- A sample at the other level ends the measurement with its count. -/
theorem measure_ends {l : Level} {s : State} (h : s.lineSample ≠ l) :
    measureTick l s = (some (.count s.cnt), { s with cnt := 0 }) := by
  simp [measureTick, h]

/-- The last sample of the budget at the expected level is the timeout. -/
theorem measure_timeout {l : Level} {s : State} (h : s.lineSample = l) (hc : s.cnt = s.params.cycleBudget - 1) :
    measureTick l s = (some .timeout, s) := by
  simp [measureTick, h, hc]

/-- A sample at the expected level before that is counted. -/
theorem measure_counts {l : Level} {s : State} (h : s.lineSample = l) (hc : s.cnt + 1 < s.params.cycleBudget) :
    measureTick l s = (none, { s with cnt := s.cnt + 1 }) := by
  have : s.cnt ≠ s.params.cycleBudget - 1 := by omega
  simp [measureTick, h, this, increment_of_lt s.params.cycleBudget_le hc]

/-- Everything a measurement tick can do. -/
theorem measure_cases (l : Level) (s : State) :
    (s.lineSample ≠ l ∧ measureTick l s = (some (.count s.cnt), { s with cnt := 0 }))
    ∨ (s.lineSample = l ∧ s.cnt = s.params.cycleBudget - 1 ∧ measureTick l s = (some .timeout, s))
    ∨ (s.lineSample = l ∧ s.cnt ≠ s.params.cycleBudget - 1
        ∧ measureTick l s = (none, { s with cnt := increment s.params.cntW s.cnt })) := by
  by_cases h : s.lineSample = l
  · by_cases hc : s.cnt = s.params.cycleBudget - 1
    · exact .inr (.inl ⟨h, hc, measure_timeout h hc⟩)
    · exact .inr (.inr ⟨h, hc, by simp [measureTick, h, hc]⟩)
  · exact .inl ⟨h, measure_ends h⟩

/-- The 10-bit sum loses nothing: as a number the checksum is the sum modulo 256. -/
theorem checksumOf_toNat (f : Frame) :
    (checksumOf f).toNat
      = ((frameByte f 0).toNat + (frameByte f 1).toNat + (frameByte f 2).toNat + (frameByte f 3).toNat) % 256 := by
  have h0 := (frameByte f 0).isLt
  have h1 := (frameByte f 1).isLt
  have h2 := (frameByte f 2).isLt
  have h3 := (frameByte f 3).isLt
  simp only [checksumOf, BitVec.toNat_setWidth, BitVec.toNat_add, BitVec.zeroExtend]
  omega

/-- The validator's test is the checksum equation on numbers. -/
theorem frameChecks_iff (f : Frame) :
    frameChecks f = true ↔ (frameByte f 4).toNat
      = ((frameByte f 0).toNat + (frameByte f 1).toNat + (frameByte f 2).toNat + (frameByte f 3).toNat) % 256 := by
  rw [frameChecks, beq_iff_eq, ← BitVec.toNat_inj, checksumOf_toNat]
  exact eq_comm

/-- Shifting a bit in, as a number. -/
theorem shiftIn_toNat (sh : Frame) (b : Bool) :
    (shiftIn sh b).toNat = (sh.toNat % 2 ^ 39) * 2 + b.toNat := by
  simp [shiftIn, BitVec.toNat_concat]

/-- The new bit stands at bit 0. -/
theorem shiftIn_getLsbD_zero (sh : Frame) (b : Bool) : (shiftIn sh b).getLsbD 0 = b := by
  simp [shiftIn]

/-- The old bits move up one place. -/
theorem shiftIn_getLsbD_succ (sh : Frame) (b : Bool) (i : Nat) (h : i < 39) :
    (shiftIn sh b).getLsbD (i + 1) = sh.getLsbD i := by
  simp [shiftIn, h]

/-- A bit of five bytes put together, by the byte it falls in. -/
theorem getLsbD_bytes (b0 b1 b2 b3 b4 : Byte) (i : Nat) :
    BitVec.getLsbD (w := 40) (b0 ++ b1 ++ b2 ++ b3 ++ b4) i
      = if i < 8 then b4.getLsbD i else if i < 16 then b3.getLsbD (i - 8) else if i < 24 then b2.getLsbD (i - 16)
        else if i < 32 then b1.getLsbD (i - 24) else b0.getLsbD (i - 32) := by
  show BitVec.getLsbD (w := 8 + 8 + 8 + 8 + 8) (b0 ++ b1 ++ b2 ++ b3 ++ b4) i = _
  rw [BitVec.getLsbD_append, BitVec.getLsbD_append, BitVec.getLsbD_append, BitVec.getLsbD_append]
  simp only [show i - 8 - 8 = i - 16 by omega, show i - 16 - 8 = i - 24 by omega, show i - 24 - 8 = i - 32 by omega]
  grind

/-- A bit of a frame's byte is the frame's bit at the byte's place. -/
theorem frameByte_getLsbD (f : Frame) (k : Fin 5) (i : Nat) (h : i < 8) :
    (frameByte f k).getLsbD i = f.getLsbD (32 - 8 * k.val + i) := by
  simp [frameByte, h]

/-- The bytes of five bytes put together are those bytes. -/
theorem frameByte_bytes (b0 b1 b2 b3 b4 : Byte) :
    frameByte (b0 ++ b1 ++ b2 ++ b3 ++ b4) 0 = b0 ∧ frameByte (b0 ++ b1 ++ b2 ++ b3 ++ b4) 1 = b1
    ∧ frameByte (b0 ++ b1 ++ b2 ++ b3 ++ b4) 2 = b2 ∧ frameByte (b0 ++ b1 ++ b2 ++ b3 ++ b4) 3 = b3
    ∧ frameByte (b0 ++ b1 ++ b2 ++ b3 ++ b4) 4 = b4 := by
  refine ⟨?_, ?_, ?_, ?_, ?_⟩ <;>
  · apply BitVec.eq_of_getLsbD_eq
    intro i hi
    rw [frameByte_getLsbD _ _ _ hi, getLsbD_bytes]
    simp
    grind

end Machine

end Sys2Proof
end

