-- ==== Sys2Proof/Laws/PerInstr.lean ====
section
/-!
SUPPORT. The encoding of every operation: its word is one that some operation has, and decodes to it
(30_encoding.md R68, R69).
-/

namespace Sys2Proof.Laws.Encoding

/-- A well-formed operation's word is legal and decodes to the operation. -/
def Statement (i : Instr) : Prop :=
  i.wf = true → (encode i).wf = true ∧ decode (encode i) = .ok i

theorem reset (s : Bool) : Statement (.reset s) := fun _ => by cases s <;> decide
theorem start : Statement .start := fun _ => by decide
theorem nop : Statement .nop := fun _ => by decide
theorem idle : Statement .idle := fun _ => by decide
theorem settle : Statement .settle := fun _ => by decide
theorem reqLow : Statement .reqLow := fun _ => by decide
theorem reqHigh : Statement .reqHigh := fun _ => by decide
theorem measure (k : PulseKind) (l : Level) : Statement (.measure k l) := fun _ => by cases k <;> cases l <;> decide
theorem ackLow : Statement .ackLow := fun _ => by decide
theorem ackHigh : Statement .ackHigh := fun _ => by decide
theorem bitLow : Statement .bitLow := fun _ => by decide
theorem bitHigh : Statement .bitHigh := fun _ => by decide
theorem checksum : Statement .checksum := fun _ => by decide

end Sys2Proof.Laws.Encoding
end

