-- ==== Sys2Proof/Laws/Step.lean ====
section
/-!
SUPPORT. What one tick does, phase by phase, said once.
-/

namespace Sys2Proof.Machine

@[simp] theorem expectedLevel_ackLow : Phase.ackLow.expectedLevel = .low := rfl
@[simp] theorem expectedLevel_ackHigh : Phase.ackHigh.expectedLevel = .high := rfl
@[simp] theorem expectedLevel_bitLow : Phase.bitLow.expectedLevel = .low := rfl
@[simp] theorem expectedLevel_bitHigh : Phase.bitHigh.expectedLevel = .high := rfl

/-- A phase's code decodes to the phase's operation. -/
@[simp] theorem decode_phase_code (p : Phase) : decode (.phase p.code) = .ok p.instr := by
  cases p <;> rfl

/-- The command word decodes by its two bits. -/
@[simp] theorem decode_cmdWord (r b : Bool) :
    decode (cmdWord r b) = .ok (if r then .reset b else if b then .start else .nop) := by
  cases r <;> cases b <;> rfl

/-- With `rst` raised the tick is a RESET. -/
theorem step_reset {s : State} (h : s.rst = true) : step s = .next (s.clear .idle).advance := by
  simp [step, State.fetchWord, h, exec, execReset, thenAdvance]

/-- Without `rst` the tick is the phase's operation. -/
theorem step_phase {s : State} (h : s.rst = false) : step s = thenAdvance (exec s.phase.instr s) := by
  simp [step, State.fetchWord, h]

variable {s : State}

theorem step_idle (h : s.rst = false) (hp : s.phase = .idle) :
    step s = .next (if s.start then acceptStart s else s).advance := by
  rw [step_phase h, hp]; rfl

theorem step_settle (h : s.rst = false) (hp : s.phase = .settle) :
    step s = .next (timed s.params.tSettle .reqLow s).advance := by
  rw [step_phase h, hp]; rfl

theorem step_reqLow (h : s.rst = false) (hp : s.phase = .reqLow) :
    step s = .next (timed s.params.tReqLow .reqHigh s).advance := by
  rw [step_phase h, hp]; rfl

theorem step_reqHigh_more (h : s.rst = false) (hp : s.phase = .reqHigh) (ht : s.timer ≠ s.params.tReqHigh - 1) :
    step s = .next (State.advance { s with timer := increment s.params.timerW s.timer }) := by
  simp [step_phase h, hp, Phase.instr, exec, execReqHigh, timed, ht, thenAdvance]

theorem step_reqHigh_last (h : s.rst = false) (hp : s.phase = .reqHigh) (ht : s.timer = s.params.tReqHigh - 1) :
    step s = .next (State.advance { s with timer := 0, phase := .ackLow, cnt := 0 }) := by
  simp [step_phase h, hp, Phase.instr, exec, execReqHigh, timed, ht, thenAdvance]

theorem step_checksum (h : s.rst = false) (hp : s.phase = .checksum) :
    step s = .next (if frameChecks s.sh
      then { s with frame40 := s.sh, status := .ok, frameValid := true, phase := .idle }
      else raiseFailure .checksumMismatch { s with frame40 := s.sh }).advance := by
  rw [step_phase h, hp]; rfl

/-- What a count does to the state it is taken in, by measuring phase (41_sequencer.md R116, R117,
42_bit_capture.md R140, R141); other phases take none. -/
def onCount (s : State) : State :=
  match s.phase with
  | .ackLow   => { s with cnt := 0, phase := .ackHigh }
  | .ackHigh  => { s with cnt := 0, phase := .bitLow, bitIdx := 0 }
  | .bitLow   => { s with cnt := 0, refCnt := s.cnt, phase := .bitHigh }
  | .bitHigh  => nextPosition { s with cnt := 0, sh := shiftIn s.sh (decideBit s.cnt s.refCnt) }
  | .idle     => s
  | .settle   => s
  | .reqLow   => s
  | .reqHigh  => s
  | .checksum => s

theorem onCount_ackLow {s : State} (h : s.phase = .ackLow) : onCount s = { s with cnt := 0, phase := .ackHigh } := by
  simp [onCount, h]

theorem onCount_ackHigh {s : State} (h : s.phase = .ackHigh) :
    onCount s = { s with cnt := 0, phase := .bitLow, bitIdx := 0 } := by
  simp [onCount, h]

theorem onCount_bitLow {s : State} (h : s.phase = .bitLow) :
    onCount s = { s with cnt := 0, refCnt := s.cnt, phase := .bitHigh } := by
  simp [onCount, h]

/-- The last position's count leads to CHECKSUM. -/
theorem onCount_bitHigh_last {s : State} (h : s.phase = .bitHigh) (hi : s.bitIdx = 39) :
    onCount s = { s with cnt := 0, sh := shiftIn s.sh (decideBit s.cnt s.refCnt), phase := .checksum } := by
  simp [onCount, h, nextPosition, hi]

/-- An earlier position's count leads to the next position. -/
theorem onCount_bitHigh_more {s : State} (h : s.phase = .bitHigh) (hi : s.bitIdx ≠ 39) :
    onCount s = { s with
      cnt := 0, sh := shiftIn s.sh (decideBit s.cnt s.refCnt), bitIdx := s.bitIdx + 1, phase := .bitLow } := by
  simp [onCount, h, nextPosition, hi]

/-- The four measuring phases. -/
theorem phase_of_measures {p : Phase} (h : p.measures = true) :
    p = .ackLow ∨ p = .ackHigh ∨ p = .bitLow ∨ p = .bitHigh := by
  cases p <;> simp_all [Phase.measures]

/-- A position before the last has a next one. -/
theorem bitIdx_succ {k : Fin 40} (h : k ≠ 39) : (k + 1).val = k.val + 1 ∧ k.val < 39 := by
  have h1 : k.val ≠ 39 := fun e => h (Fin.ext e)
  have h2 := k.isLt
  refine ⟨?_, by omega⟩
  rw [Fin.val_add]
  simp
  omega

/-- A measuring phase whose sample is at the other level: the count is taken. -/
theorem step_measure_ends (h : s.rst = false) (hm : s.phase.measures = true)
    (hl : s.lineSample ≠ s.phase.expectedLevel) : step s = .next (onCount s).advance := by
  rw [step_phase h]
  generalize hp : s.phase = p at hm hl
  cases p <;> simp only [Phase.measures, Bool.false_eq_true] at hm
  all_goals
    simp only [expectedLevel_ackLow, expectedLevel_ackHigh, expectedLevel_bitLow, expectedLevel_bitHigh] at hl
    simp only [onCount, hp, Phase.instr, exec, execAckLow, execAckHigh, execBitLow, execBitHigh, thenAdvance,
      measure_ends hl]

/-- A measuring phase whose sample is the last of the budget at the expected level: the failure of the phase. -/
theorem step_measure_timeout (h : s.rst = false) {f : Failure} (hf : s.phase.timeoutFailure = some f)
    (hl : s.lineSample = s.phase.expectedLevel) (hc : s.cnt = s.params.cycleBudget - 1) :
    step s = .next (raiseFailure f s).advance := by
  rw [step_phase h]
  generalize hp : s.phase = p at hf hl
  cases p <;> simp only [Phase.timeoutFailure, Option.some.injEq, reduceCtorEq] at hf <;> subst hf
  all_goals
    simp only [expectedLevel_ackLow, expectedLevel_ackHigh, expectedLevel_bitLow, expectedLevel_bitHigh] at hl
    simp only [Phase.instr, exec, execAckLow, execAckHigh, execBitLow, execBitHigh, thenAdvance,
      measure_timeout hl hc]

/-- A measuring phase whose sample is at the expected level with budget left: the sample is counted. -/
theorem step_measure_goes_on (h : s.rst = false) (hm : s.phase.measures = true)
    (hl : s.lineSample = s.phase.expectedLevel) (hc : s.cnt ≠ s.params.cycleBudget - 1) :
    step s = .next (State.advance { s with cnt := increment s.params.cntW s.cnt }) := by
  have key : measureTick s.phase.expectedLevel s = (none, { s with cnt := increment s.params.cntW s.cnt }) := by
    simp [measureTick, hl, hc]
  rw [step_phase h]
  generalize hp : s.phase = p at hm hl key
  cases p <;> simp only [Phase.measures, Bool.false_eq_true] at hm
  all_goals
    simp only [expectedLevel_ackLow, expectedLevel_ackHigh, expectedLevel_bitLow, expectedLevel_bitHigh] at key
    simp only [Phase.instr, exec, execAckLow, execAckHigh, execBitLow, execBitHigh, thenAdvance, key]

/-- The measuring phases are those with a timeout failure. -/
theorem timeoutFailure_of_measures {p : Phase} (h : p.measures = true) : ∃ f, p.timeoutFailure = some f := by
  cases p <;> simp_all [Phase.measures, Phase.timeoutFailure]

/-- The five phases that do not measure. -/
theorem phase_of_not_measures {p : Phase} (h : ¬p.measures = true) :
    p = .idle ∨ p = .settle ∨ p = .reqLow ∨ p = .reqHigh ∨ p = .checksum := by
  cases p <;> simp_all [Phase.measures]

/-- Everything one tick can do, guards included. -/
theorem step_cases (s : State) :
    (s.rst = true ∧ step s = .next (s.clear .idle).advance)
    ∨ (s.rst = false ∧ s.phase = .idle ∧ s.start = true ∧ step s = .next (s.clear .settle).advance)
    ∨ (s.rst = false ∧ s.phase = .idle ∧ s.start = false ∧ step s = .next s.advance)
    ∨ (s.rst = false ∧ s.phase = .settle ∧ step s = .next (timed s.params.tSettle .reqLow s).advance)
    ∨ (s.rst = false ∧ s.phase = .reqLow ∧ step s = .next (timed s.params.tReqLow .reqHigh s).advance)
    ∨ (s.rst = false ∧ s.phase = .reqHigh ∧ s.timer = s.params.tReqHigh - 1
        ∧ step s = .next (State.advance { s with timer := 0, phase := .ackLow, cnt := 0 }))
    ∨ (s.rst = false ∧ s.phase = .reqHigh ∧ s.timer ≠ s.params.tReqHigh - 1
        ∧ step s = .next (State.advance { s with timer := increment s.params.timerW s.timer }))
    ∨ (s.rst = false ∧ s.phase.measures = true ∧ s.lineSample ≠ s.phase.expectedLevel
        ∧ step s = .next (onCount s).advance)
    ∨ (s.rst = false ∧ s.phase.measures = true ∧ s.lineSample = s.phase.expectedLevel
        ∧ s.cnt = s.params.cycleBudget - 1
        ∧ ∃ f, s.phase.timeoutFailure = some f ∧ step s = .next (raiseFailure f s).advance)
    ∨ (s.rst = false ∧ s.phase.measures = true ∧ s.lineSample = s.phase.expectedLevel
        ∧ s.cnt ≠ s.params.cycleBudget - 1
        ∧ step s = .next (State.advance { s with cnt := increment s.params.cntW s.cnt }))
    ∨ (s.rst = false ∧ s.phase = .checksum ∧ frameChecks s.sh = true
        ∧ step s = .next (State.advance { s with frame40 := s.sh, status := .ok, frameValid := true, phase := .idle }))
    ∨ (s.rst = false ∧ s.phase = .checksum ∧ frameChecks s.sh = false
        ∧ step s = .next (State.advance (raiseFailure .checksumMismatch { s with frame40 := s.sh }))) := by
  by_cases hr : s.rst = true
  · exact .inl ⟨hr, step_reset hr⟩
  have hr : s.rst = false := by simpa using hr
  refine .inr ?_
  by_cases hm : s.phase.measures = true
  · have hmeas := hm
    obtain ⟨f, hf⟩ := timeoutFailure_of_measures hm
    refine .inr (.inr (.inr (.inr (.inr (.inr ?_)))))
    by_cases hl : s.lineSample = s.phase.expectedLevel
    · by_cases hc : s.cnt = s.params.cycleBudget - 1
      · exact .inr (.inl ⟨hr, hm, hl, hc, f, hf, step_measure_timeout hr hf hl hc⟩)
      · exact .inr (.inr (.inl ⟨hr, hm, hl, hc, step_measure_goes_on hr hm hl hc⟩))
    · exact .inl ⟨hr, hm, hl, step_measure_ends hr hm hl⟩
  · obtain hp | hp | hp | hp | hp := phase_of_not_measures hm
    · cases hs : s.start with
      | true => exact .inl ⟨hr, hp, rfl, by simp [step_idle hr hp, hs, acceptStart]⟩
      | false => exact .inr (.inl ⟨hr, hp, rfl, by simp [step_idle hr hp, hs]⟩)
    · exact .inr (.inr (.inl ⟨hr, hp, step_settle hr hp⟩))
    · exact .inr (.inr (.inr (.inl ⟨hr, hp, step_reqLow hr hp⟩)))
    · by_cases ht : s.timer = s.params.tReqHigh - 1
      · exact .inr (.inr (.inr (.inr (.inl ⟨hr, hp, ht, step_reqHigh_last hr hp ht⟩))))
      · exact .inr (.inr (.inr (.inr (.inr (.inl ⟨hr, hp, ht, step_reqHigh_more hr hp ht⟩)))))
    · refine .inr (.inr (.inr (.inr (.inr (.inr (.inr (.inr (.inr ?_))))))))
      cases hc : frameChecks s.sh with
      | true => exact .inl ⟨hr, hp, rfl, by simp [step_checksum hr hp, hc]⟩
      | false => exact .inr ⟨hr, hp, rfl, by simp [step_checksum hr hp, hc]⟩

end Sys2Proof.Machine
end

