-- ==== Sys2Proof/Laws/Run.lean ====
section
/-!
SUPPORT. Runs of several ticks: composition, a timed phase, and a measurement over matching samples.
-/

namespace Sys2Proof.Machine

@[simp] theorem runTicks_zero (s : State) : runTicks 0 s = .next s := rfl

/-- A run is the host's own run of the core. -/
theorem runTicks_eq_core_run (n : Nat) (s : State) : runTicks n s = Host.Core.run Sys2Proof.core n s := by
  induction n generalizing s with
  | zero => rfl
  | succ n ih =>
    have hc : Sys2Proof.core.step s = step s := rfl
    cases h : step s <;> simp [runTicks, Host.Core.run, hc, h, ih] <;> rfl

/-- One tick, then the rest. -/
theorem runTicks_succ {s t : State} (n : Nat) (h : step s = .next t) : runTicks (n + 1) s = runTicks n t := by
  simp [runTicks, h]

/-- Runs compose. -/
theorem runTicks_add {s t : State} (m n : Nat) (h : runTicks m s = .next t) : runTicks (m + n) s = runTicks n t := by
  induction m generalizing s with
  | zero => simp only [runTicks_zero, Host.Outcome.next.injEq] at h; simp [h]
  | succ m ih =>
    cases hs : step s with
    | next u => rw [runTicks_succ m hs] at h; rw [Nat.add_right_comm, runTicks_succ _ hs, ih h]
    | fault r => simp [runTicks, hs] at h
    | refused r => simp [runTicks, hs] at h

/-- A run, then one tick more. -/
theorem runTicks_snoc {s t u : State} {n : Nat} (h : runTicks n s = .next t) (h' : step t = .next u) :
    runTicks (n + 1) s = .next u := by
  rw [runTicks_add n 1 h, runTicks_succ 0 h', runTicks_zero]

/-- The input of a state whose list has been dropped to position `k`. -/
theorem input_drop {s t : State} {k : Nat} {x : Inputs} (ht : t.inputs = s.inputs.drop k) (hx : s.inputs[k]? = some x) :
    t.input = x := by
  obtain ⟨hk, rfl⟩ := List.getElem?_eq_some_iff.mp hx
  rw [List.drop_eq_getElem_cons hk] at ht
  exact State.input_of_cons _ ht

/-- A timed phase before its last tick. -/
theorem step_timed_more {s : State} {N : Nat} (h : s.rst = false) (hp : s.phase.timedLength s.params = some N)
    (ht : s.timer + 1 < N) : step s = .next (State.advance { s with timer := s.timer + 1 }) := by
  generalize hq : s.phase = p at hp
  cases p <;> simp only [Phase.timedLength, Option.some.injEq, reduceCtorEq] at hp <;> subst hp
  · rw [step_settle h hq, timed_more s.params.tSettle_le ht, hq]
  · rw [step_reqLow h hq, timed_more s.params.tReqLow_le ht, hq]
  · rw [step_reqHigh_more h hq (by omega), increment_of_lt s.params.tReqHigh_le ht, hq]

/-- A timed phase on its last tick: `timer` is cleared, and `cnt` too on leaving REQ_HIGH. -/
theorem step_timed_last {s : State} {N : Nat} (h : s.rst = false) (hp : s.phase.timedLength s.params = some N)
    (ht : s.timer = N - 1) :
    step s = .next (State.advance { s with
      timer := 0, phase := s.phase.successor s.bitIdx, cnt := if s.phase = .reqHigh then 0 else s.cnt }) := by
  generalize hq : s.phase = p at hp
  cases p <;> simp only [Phase.timedLength, Option.some.injEq, reduceCtorEq] at hp <;> subst hp
  · simp [step_settle h hq, timed_last ht, Phase.successor]
  · simp [step_reqLow h hq, timed_last ht, Phase.successor]
  · simp [step_reqHigh_last h hq ht, Phase.successor]

/-- `n` ticks of a timed phase short of its last. -/
theorem run_timed {s : State} {N : Nat} (hp : s.phase.timedLength s.params = some N) (n : Nat)
    (ht : s.timer + n < N) (hr : s.NoReset n) :
    runTicks n s = .next { s with timer := s.timer + n, inputs := s.inputs.drop n, tick := s.tick + n } := by
  induction n with
  | zero => simp
  | succ n ih =>
    obtain ⟨hlen, hall⟩ := hr
    have hprev := ih (by omega) ⟨by omega, fun x hx => hall x (List.take_subset_take_left _ (by omega) hx)⟩
    have hget : s.inputs[n]? = some s.inputs[n] := List.getElem?_eq_getElem (by omega)
    refine runTicks_snoc hprev ?_
    have hin := input_drop (t := { s with timer := s.timer + n, inputs := s.inputs.drop n, tick := s.tick + n }) rfl hget
    have hx : s.inputs[n].rst = false := hall _ (List.mem_take_iff_getElem.mpr ⟨n, by omega, rfl⟩)
    refine (step_timed_more (N := N)
      (s := { s with timer := s.timer + n, inputs := s.inputs.drop n, tick := s.tick + n }) (by simp [State.rst, hin, hx]) hp (by simp; omega)).trans ?_
    simp [State.advance, Nat.add_assoc]

/-- `n` matching samples of a measurement, short of the budget, are counted. -/
theorem run_matching {s : State} (hm : s.phase.measures = true) (n : Nat) (hc : s.cnt + n < s.params.cycleBudget)
    (hr : s.NoReset n) (hl : ∀ y ∈ s.inputs.take n, y.line = s.phase.expectedLevel) :
    runTicks n s = .next { s with cnt := s.cnt + n, inputs := s.inputs.drop n, tick := s.tick + n } := by
  induction n with
  | zero => simp
  | succ n ih =>
    obtain ⟨hlen, hall⟩ := hr
    have hsub : s.inputs.take n ⊆ s.inputs.take (n + 1) := List.take_subset_take_left _ (by omega)
    have hprev := ih (by omega) ⟨by omega, fun x hx => hall x (hsub hx)⟩ (fun y hy => hl y (hsub hy))
    have hget : s.inputs[n]? = some s.inputs[n] := List.getElem?_eq_getElem (by omega)
    have hmem : s.inputs[n] ∈ s.inputs.take (n + 1) := List.mem_take_iff_getElem.mpr ⟨n, by omega, rfl⟩
    refine runTicks_snoc hprev ?_
    have hin := input_drop (t := { s with cnt := s.cnt + n, inputs := s.inputs.drop n, tick := s.tick + n }) rfl hget
    refine (step_measure_goes_on
      (s := { s with cnt := s.cnt + n, inputs := s.inputs.drop n, tick := s.tick + n })
      (by simp [State.rst, hin, hall _ hmem]) hm
      (by simp [State.lineSample, hin, hl _ hmem]) (by simp; omega)).trans ?_
    simp [State.advance, Nat.add_assoc, increment_of_lt s.params.cycleBudget_le (show s.cnt + n + 1 < _ by omega)]

/-- Fewer ticks without a reset. -/
theorem noReset_of_le {s : State} {n m : Nat} (h : s.NoReset n) (hm : m ≤ n) : s.NoReset m :=
  ⟨by have := h.1; omega, fun x hx => h.2 x (List.take_subset_take_left _ hm hx)⟩

/-- Ticks without a reset, seen from a state `m` ticks later. -/
theorem noReset_later {s t : State} {n m k : Nat} (h : s.NoReset n) (ht : t.inputs = s.inputs.drop m)
    (hk : m + k ≤ n) : t.NoReset k := by
  have hlen := h.1
  refine ⟨by rw [ht, List.length_drop]; omega, fun x hx => ?_⟩
  rw [ht] at hx
  obtain ⟨i, hi, rfl⟩ := List.mem_take_iff_getElem.mp hx
  rw [List.length_drop] at hi
  exact h.2 _ (List.mem_take_iff_getElem.mpr ⟨m + i, by omega, by simp⟩)

/-- A whole timed phase. -/
theorem run_timed_whole {s : State} {N : Nat} (hN : 1 ≤ N) (hp : s.phase.timedLength s.params = some N)
    (ht : s.timer = 0) (hr : s.NoReset N) :
    runTicks N s = .next { s with
      timer := 0, phase := s.phase.successor s.bitIdx, cnt := if s.phase = .reqHigh then 0 else s.cnt,
      inputs := s.inputs.drop N, tick := s.tick + N } := by
  obtain ⟨M, rfl⟩ : ∃ M, N = M + 1 := ⟨N - 1, by omega⟩
  have hlen := hr.1
  have hget : s.inputs[M]? = some s.inputs[M] := List.getElem?_eq_getElem (by omega)
  have hin := input_drop (t := { s with timer := s.timer + M, inputs := s.inputs.drop M, tick := s.tick + M }) rfl hget
  have hx : s.inputs[M].rst = false := hr.2 _ (List.mem_take_iff_getElem.mpr ⟨M, by omega, rfl⟩)
  refine runTicks_snoc (run_timed hp M (by omega) (noReset_of_le hr (by omega))) ?_
  refine (step_timed_last (N := M + 1)
    (s := { s with timer := s.timer + M, inputs := s.inputs.drop M, tick := s.tick + M })
    (by simp [State.rst, hin, hx]) hp (by simp [ht])).trans ?_
  simp [State.advance, Nat.add_assoc]

/-- A whole measurement that ends with a count. -/
theorem run_count {s : State} {pulse rest : List Inputs} {x : Inputs} (hm : s.phase.measures = true) (hc : s.cnt = 0)
    (hn : pulse.length ≤ s.params.cycleBudget - 1) (hin : s.inputs = pulse ++ x :: rest)
    (hp : ∀ y ∈ pulse, y.rst = false ∧ y.line = s.phase.expectedLevel)
    (hx : x.rst = false) (hl : x.line ≠ s.phase.expectedLevel) :
    runTicks (pulse.length + 1) s = .next (State.advance (onCount { s with
      cnt := pulse.length, inputs := x :: rest, tick := s.tick + pulse.length })) := by
  have hdrop : s.inputs.drop pulse.length = x :: rest := by rw [hin]; simp
  have htake : s.inputs.take pulse.length = pulse := by rw [hin]; simp
  have run : runTicks pulse.length s
      = .next { s with cnt := pulse.length, inputs := x :: rest, tick := s.tick + pulse.length } := by
    by_cases h0 : pulse.length = 0
    · rw [h0] at hdrop ⊢
      rw [List.drop_zero] at hdrop
      simp only [runTicks_zero, Nat.add_zero]
      rw [← hdrop, ← hc]
    · have := run_matching hm pulse.length (by omega) ⟨by rw [hin]; simp, fun y hy => (hp y (htake ▸ hy)).1⟩
        (fun y hy => (hp y (htake ▸ hy)).2)
      simpa [hc, hdrop] using this
  exact runTicks_snoc run (step_measure_ends (by simpa [State.rst, State.input] using hx) hm
    (by simpa [State.lineSample, State.input] using hl))

/-- States that agree on everything are equal. -/
theorem state_eq {u v : State} (h : SameBlock u v) (hp : u.params = v.params) (hh : u.host = v.host)
    (hi : u.inputs = v.inputs) (ht : u.tick = v.tick) : u = v := by
  obtain ⟨a1, a2, a3, a4, a5, a6, a7, a8, a9⟩ := h
  cases u; cases v; simp_all

/-- What no tick touches but the clock: the parameters and the host stay, one input is used up. -/
theorem step_outside {s t : State} (h : step s = .next t) :
    t.params = s.params ∧ t.host = s.host ∧ t.inputs = s.inputs.tail ∧ t.tick = s.tick + 1 := by
  obtain ⟨-, h'⟩ | ⟨-, -, -, h'⟩ | ⟨-, -, -, h'⟩ | ⟨-, -, h'⟩ | ⟨-, -, h'⟩ | ⟨-, -, -, h'⟩ | ⟨-, -, -, h'⟩
    | ⟨-, -, -, h'⟩ | ⟨-, -, -, -, f, -, h'⟩ | ⟨-, -, -, -, h'⟩ | ⟨-, -, -, h'⟩ | ⟨-, -, -, h'⟩ := step_cases s <;>
    rw [h'] at h <;> simp only [Host.Outcome.next.injEq] at h <;> subst h
  case inr.inr.inr.inl => obtain ⟨-, e⟩ | ⟨-, e⟩ := timed_cases s.params.tSettle .reqLow s <;> simp [e]
  case inr.inr.inr.inr.inl => obtain ⟨-, e⟩ | ⟨-, e⟩ := timed_cases s.params.tReqLow .reqHigh s <;> simp [e]
  case inr.inr.inr.inr.inr.inr.inr.inl =>
    simp only [State.advance_params, State.advance_host, State.advance_inputs, State.advance_tick]
    cases hp : s.phase <;> simp only [onCount, hp, nextPosition] <;> (try split) <;> simp
  all_goals simp

/-- Nothing stops a run; its inputs are used up one a tick. -/
theorem run_total (n : Nat) (s : State) : ∃ t, runTicks n s = .next t
    ∧ t.params = s.params ∧ t.host = s.host ∧ t.inputs = s.inputs.drop n ∧ t.tick = s.tick + n := by
  induction n generalizing s with
  | zero => exact ⟨s, rfl, rfl, rfl, rfl, rfl⟩
  | succ n ih =>
    obtain ⟨u, hu⟩ : ∃ u, step s = .next u := by
      obtain ⟨-, h'⟩ | ⟨-, -, -, h'⟩ | ⟨-, -, -, h'⟩ | ⟨-, -, h'⟩ | ⟨-, -, h'⟩ | ⟨-, -, -, h'⟩ | ⟨-, -, -, h'⟩
        | ⟨-, -, -, h'⟩ | ⟨-, -, -, -, f, -, h'⟩ | ⟨-, -, -, -, h'⟩ | ⟨-, -, -, h'⟩ | ⟨-, -, -, h'⟩ := step_cases s <;>
        exact ⟨_, h'⟩
    obtain ⟨hp, hh, hi, ht⟩ := step_outside hu
    obtain ⟨t, h, hp', hh', hi', ht'⟩ := ih u
    refine ⟨t, (runTicks_succ n hu).trans h, hp'.trans hp, hh'.trans hh, ?_, ?_⟩
    · rw [hi', hi, List.drop_tail]
    · omega

/-- Two states that agree on the block, its parameters and the inputs their phase reads take the same tick. -/
theorem step_sameBlock {s t : State} (hb : SameBlock s t) (hp : s.params = t.params) (hr : s.rst = t.rst)
    (hs : s.phase = .idle → s.start = t.start) (hl : s.phase.measures = true → s.lineSample = t.lineSample) :
    ∃ u v, step s = .next u ∧ step t = .next v ∧ SameBlock u v := by
  obtain ⟨h1, h2, h3, h4, h5, h6, h7, h8, h9⟩ := hb
  cases hrs : s.rst with
  | true => exact ⟨_, _, step_reset hrs, step_reset (hr ▸ hrs), by simp [SameBlock]⟩
  | false =>
    have hrt : t.rst = false := hr ▸ hrs
    by_cases hm : s.phase.measures = true
    · have hmt : t.phase.measures = true := h1 ▸ hm
      by_cases he : s.lineSample = s.phase.expectedLevel
      · have het : t.lineSample = t.phase.expectedLevel := by rw [← h1, ← he, hl hm]
        by_cases hc : s.cnt = s.params.cycleBudget - 1
        · obtain ⟨f, hf⟩ := timeoutFailure_of_measures hm
          exact ⟨_, _, step_measure_timeout hrs hf he hc,
            step_measure_timeout hrt (h1 ▸ hf) het (by rw [← h4, ← hp, hc]), by simp [SameBlock, *]⟩
        · exact ⟨_, _, step_measure_goes_on hrs hm he hc,
            step_measure_goes_on hrt hmt het (by rw [← h4, ← hp]; exact hc), by simp [SameBlock, *]⟩
      · have het : t.lineSample ≠ t.phase.expectedLevel := by rw [← h1, ← hl hm]; exact he
        refine ⟨_, _, step_measure_ends hrs hm he, step_measure_ends hrt hmt het, ?_⟩
        cases hq : t.phase <;> simp [Phase.measures, hq] at hmt <;>
          simp only [onCount, h1, hq, nextPosition, h2, h4, h5, h6] <;> (try split) <;> simp [SameBlock, *]
    · obtain hq | hq | hq | hq | hq := phase_of_not_measures hm
      · refine ⟨_, _, step_idle hrs hq, step_idle hrt (h1 ▸ hq), ?_⟩
        rw [← hs hq]
        split <;> simp [SameBlock, acceptStart, *]
      · refine ⟨_, _, step_settle hrs hq, step_settle hrt (h1 ▸ hq), ?_⟩
        simp only [timed, h3, hp]; split <;> simp [SameBlock, *]
      · refine ⟨_, _, step_reqLow hrs hq, step_reqLow hrt (h1 ▸ hq), ?_⟩
        simp only [timed, h3, hp]; split <;> simp [SameBlock, *]
      · by_cases ht : s.timer = s.params.tReqHigh - 1
        · exact ⟨_, _, step_reqHigh_last hrs hq ht,
            step_reqHigh_last hrt (h1 ▸ hq) (by rw [← h3, ← hp, ht]), by simp [SameBlock, *]⟩
        · exact ⟨_, _, step_reqHigh_more hrs hq ht,
            step_reqHigh_more hrt (h1 ▸ hq) (by rw [← h3, ← hp]; exact ht), by simp [SameBlock, *]⟩
      · refine ⟨_, _, step_checksum hrs hq, step_checksum hrt (h1 ▸ hq), ?_⟩
        rw [h6]; split <;> simp [SameBlock, *]

/-- A tick always leads to a next state. -/
theorem step_total (s : State) : ∃ t, step s = .next t := by
  obtain ⟨t, ht, -⟩ := run_total 1 s
  exact ⟨t, by cases h : step s <;> simp_all [runTicks]⟩

/-- Two input triples that differ only in what the phase does not read give the same tick. -/
theorem step_withInput (s : State) (x y : Inputs) (hr : x.rst = y.rst) (hs : s.phase = .idle → x.start = y.start)
    (hl : s.phase.measures = true → x.line = y.line) : step (s.withInput x) = step (s.withInput y) := by
  obtain ⟨u, v, hu, hv, hb⟩ := step_sameBlock (s := s.withInput x) (t := s.withInput y) (by simp [SameBlock]) rfl hr hs hl
  obtain ⟨a, b, c, d⟩ := step_outside hu
  obtain ⟨a', b', c', d'⟩ := step_outside hv
  rw [hu, hv, state_eq hb (a.trans a'.symm) (b.trans b'.symm) (by rw [c, c']; rfl) (by rw [d, d']; rfl)]

end Sys2Proof.Machine
end

