-- ==== Sys2Proof/Laws/Rank.lean ====
section
/-!
SUPPORT. The ticks a read can still take: a number that every tick of a read lowers (70_reset_and_hazards.md R247).
-/

namespace Sys2Proof.Machine

/-- The most ticks until the block is idle again, in a state that meets the timer and count bounds. -/
def State.rank (s : State) : Nat :=
  match s.phase with
  | .idle     => 0
  | .checksum => 1
  | .bitHigh  => (s.params.cycleBudget - s.cnt) + 2 * s.params.cycleBudget * (39 - s.bitIdx.val) + 1
  | .bitLow   =>
    (s.params.cycleBudget - s.cnt) + s.params.cycleBudget + 2 * s.params.cycleBudget * (39 - s.bitIdx.val) + 1
  | .ackHigh  => (s.params.cycleBudget - s.cnt) + 80 * s.params.cycleBudget + 1
  | .ackLow   => (s.params.cycleBudget - s.cnt) + 81 * s.params.cycleBudget + 1
  | .reqHigh  => (s.params.tReqHigh - s.timer) + 82 * s.params.cycleBudget + 1
  | .reqLow   => (s.params.tReqLow - s.timer) + s.params.tReqHigh + 82 * s.params.cycleBudget + 1
  | .settle   =>
    (s.params.tSettle - s.timer) + s.params.tReqLow + s.params.tReqHigh + 82 * s.params.cycleBudget + 1

/-- Only the idle block has nothing left to do. -/
theorem rank_pos {s : State} (h : s.phase ≠ .idle) : 0 < s.rank := by
  cases hp : s.phase <;> simp_all [State.rank]

/-- Every tick of a read lowers the rank. -/
theorem step_rank {s t : State} (hw : s.params.wf) (ht : s.TimerInv) (hc : s.cnt ≤ s.params.cycleBudget - 1)
    (hb : s.phase ≠ .idle) (hr : s.rst = false) (h : step s = .next t) : t.rank < s.rank := by
  obtain ⟨-, hB, hS, hL, hH⟩ := hw
  obtain ⟨h0, h'⟩ | ⟨-, hp, -, h'⟩ | ⟨-, hp, -, h'⟩ | ⟨-, hp, h'⟩ | ⟨-, hp, h'⟩ | ⟨-, hp, he, h'⟩ | ⟨-, hp, he, h'⟩
    | ⟨-, hm, -, h'⟩ | ⟨-, hm, -, hcc, f, -, h'⟩ | ⟨-, hm, -, hcc, h'⟩ | ⟨-, hp, -, h'⟩ | ⟨-, hp, -, h'⟩ :=
    step_cases s <;> rw [h'] at h <;> simp only [Host.Outcome.next.injEq] at h <;> subst h
  · simp [hr] at h0
  · exact absurd hp hb
  · exact absurd hp hb
  · simp only [State.TimerInv, hp] at ht
    obtain ⟨e, e'⟩ | ⟨e, e'⟩ := timed_cases s.params.tSettle .reqLow s
    · simp only [State.rank, hp, e', State.advance_phase, State.advance_timer, State.advance_params]; omega
    · have := increment_of_lt s.params.tSettle_le (n := s.timer) (by omega)
      simp only [State.rank, hp, e', this, State.advance_phase, State.advance_timer, State.advance_params]; omega
  · simp only [State.TimerInv, hp] at ht
    obtain ⟨e, e'⟩ | ⟨e, e'⟩ := timed_cases s.params.tReqLow .reqHigh s
    · simp only [State.rank, hp, e', State.advance_phase, State.advance_timer, State.advance_params]; omega
    · have := increment_of_lt s.params.tReqLow_le (n := s.timer) (by omega)
      simp only [State.rank, hp, e', this, State.advance_phase, State.advance_timer, State.advance_params]; omega
  · simp only [State.TimerInv, hp] at ht
    simp only [State.rank, hp, State.advance_phase, State.advance_cnt, State.advance_params]; omega
  · simp only [State.TimerInv, hp] at ht
    have := increment_of_lt s.params.tReqHigh_le (n := s.timer) (by omega)
    simp only [State.rank, hp, this, State.advance_phase, State.advance_timer, State.advance_params]; omega
  · obtain hq | hq | hq | hq := phase_of_measures hm
    · simp only [onCount_ackLow hq, State.rank, hq, State.advance_phase, State.advance_cnt, State.advance_params]
      omega
    · simp only [onCount_ackHigh hq, State.rank, hq, State.advance_phase, State.advance_cnt, State.advance_params,
        State.advance_bitIdx, Fin.val_zero]
      omega
    · simp only [onCount_bitLow hq, State.rank, hq, State.advance_phase, State.advance_cnt, State.advance_params,
        State.advance_bitIdx]
      omega
    · by_cases hi : s.bitIdx = 39
      · simp only [onCount_bitHigh_last hq hi, State.rank, hq, State.advance_phase]
        omega
      · obtain ⟨e1, e2⟩ := bitIdx_succ hi
        simp only [onCount_bitHigh_more hq hi, State.rank, hq, State.advance_phase, State.advance_cnt,
          State.advance_params, State.advance_bitIdx, e1]
        obtain ⟨d, hd⟩ : ∃ d, 39 - s.bitIdx.val = d + 1 := ⟨38 - s.bitIdx.val, by omega⟩
        rw [hd, show 39 - (s.bitIdx.val + 1) = d by omega, Nat.mul_succ]
        omega
  · have := rank_pos hb
    simpa [State.rank] using this
  · have := increment_of_lt s.params.cycleBudget_le (n := s.cnt) (by omega)
    obtain hq | hq | hq | hq := phase_of_measures hm <;>
      simp only [State.rank, hq, this, State.advance_phase, State.advance_cnt, State.advance_params,
        State.advance_bitIdx] <;> omega
  · simp [State.rank, hp]
  · simp [State.rank, hp]

/-- No busy state has more left than a read from its first tick. -/
theorem rank_lt_readBound {s : State} (hw : s.params.wf) : s.rank < s.params.readBound := by
  obtain ⟨-, hB, hS, hL, hH⟩ := hw
  have hk := Nat.mul_le_mul_left (2 * s.params.cycleBudget) (show 39 - s.bitIdx.val ≤ 39 by omega)
  cases hp : s.phase <;> simp only [State.rank, hp, Params.readBound] <;> omega

end Sys2Proof.Machine
end

