-- ==== Sys2Proof/Laws/Request.lean ====
section
/-!
SUPPORT. The request of a read, from the tick that accepts START to the first sample (41_sequencer.md R112 to R119).
-/

namespace Sys2Proof.Machine

/-- The block that START cleared, in phase `p` with `timer` at `n`, `k` ticks after the state `s`. -/
def State.requested (s : State) (p : Phase) (n k : Nat) : State :=
  { s.clear p with timer := n, inputs := s.inputs.drop k, tick := s.tick + k }

/-- The accepting tick. -/
theorem step_accept {s : State} (h : s.AcceptsStart) : step s = .next (s.requested .settle 0 1) := by
  refine (step_idle h.2.1 h.1).trans ?_
  simp [h.2.2, acceptStart, State.advance, State.requested, State.clear]

/-- Within a timed phase of the request. -/
theorem run_requested {s : State} {p : Phase} {N : Nat} (k n : Nat) (hp : p.timedLength s.params = some N)
    (hn : n < N) (hr : s.NoReset (k + n)) :
    runTicks n (s.requested p 0 k) = .next (s.requested p n (k + n)) := by
  have := run_timed (s := s.requested p 0 k) (N := N) hp n (by simpa [State.requested] using hn)
    (noReset_later hr (m := k) rfl le_rfl)
  simpa [State.requested, State.clear, Nat.add_assoc] using this

/-- A whole timed phase of the request. -/
theorem run_requested_whole {s : State} {p : Phase} {N : Nat} (k : Nat) (hN : 1 ≤ N)
    (hp : p.timedLength s.params = some N) (hr : s.NoReset (k + N)) :
    runTicks N (s.requested p 0 k) = .next (s.requested (p.successor 0) 0 (k + N)) := by
  have := run_timed_whole (s := s.requested p 0 k) hN hp rfl (noReset_later hr (m := k) rfl le_rfl)
  rw [show s.requested (p.successor 0) 0 (k + N) = { s.requested p 0 k with
      timer := 0, phase := p.successor 0, cnt := if p = .reqHigh then 0 else 0,
      inputs := (s.requested p 0 k).inputs.drop N, tick := (s.requested p 0 k).tick + N } by
    simp [State.requested, State.clear, Nat.add_assoc]]
  exact this

/-- Where the request stands after each of its ticks: in a phase that does not measure, or, at `t_listen`, in ACK_LOW
with everything clear. -/
theorem run_request {s : State} (hw : s.params.wf) (ha : s.AcceptsStart) (k : Nat) (h1 : 1 ≤ k)
    (h2 : k ≤ s.params.tListen) (hr : s.NoReset k) :
    ∃ p n, runTicks k s = .next (s.requested p n k)
      ∧ (k < s.params.tListen → p.measures = false ∧ p ≠ .idle)
      ∧ (k = s.params.tListen → p = .ackLow ∧ n = 0) := by
  obtain ⟨-, -, hS, hL, hH⟩ := hw
  have e : s.params.tListen = 1 + s.params.tSettle + s.params.tReqLow + s.params.tReqHigh := rfl
  have r1 : runTicks 1 s = .next (s.requested .settle 0 1) := runTicks_succ 0 (step_accept ha)
  by_cases c1 : k ≤ s.params.tSettle
  · obtain ⟨j, rfl⟩ : ∃ j, k = 1 + j := ⟨k - 1, by omega⟩
    exact ⟨.settle, j, (runTicks_add 1 j r1).trans (run_requested (N := s.params.tSettle) 1 j rfl (by omega) hr),
      fun _ => ⟨rfl, nofun⟩, by omega⟩
  have r2 := (runTicks_add 1 _ r1).trans
    (run_requested_whole 1 hS (p := .settle) rfl (noReset_of_le hr (by omega)))
  by_cases c2 : k ≤ s.params.tSettle + s.params.tReqLow
  · obtain ⟨j, rfl⟩ : ∃ j, k = 1 + s.params.tSettle + j := ⟨k - 1 - s.params.tSettle, by omega⟩
    exact ⟨.reqLow, j, (runTicks_add _ j r2).trans (run_requested (N := s.params.tReqLow) _ j rfl (by omega) hr),
      fun _ => ⟨rfl, nofun⟩, by omega⟩
  have r3 := (runTicks_add _ _ r2).trans
    (run_requested_whole _ hL (p := .reqLow) rfl (noReset_of_le hr (by omega)))
  by_cases c3 : k < s.params.tListen
  · obtain ⟨j, rfl⟩ : ∃ j, k = 1 + s.params.tSettle + s.params.tReqLow + j :=
      ⟨k - 1 - s.params.tSettle - s.params.tReqLow, by omega⟩
    exact ⟨.reqHigh, j, (runTicks_add _ j r3).trans (run_requested (N := s.params.tReqHigh) _ j rfl (by omega) hr),
      fun _ => ⟨rfl, nofun⟩, by omega⟩
  · obtain rfl : k = s.params.tListen := by omega
    exact ⟨.ackLow, 0, (runTicks_add _ _ r3).trans (run_requested_whole _ hH (p := .reqHigh) rfl hr),
      by omega, fun _ => ⟨rfl, rfl⟩⟩

end Sys2Proof.Machine
end

