-- ==== Sys2Proof/Laws/Symbol.lean ====
section
/-!
SUPPORT. One bit symbol, and what forty shifts leave in `sh` (42_bit_capture.md R144, R147).
-/

namespace Sys2Proof.Machine

/-- Equal bits shifted in, position by position: the last of them stands at bit 0. -/
theorem foldl_shiftIn_getLsbD (bs : List Bool) (sh : Frame) (i : Nat) (hi : i < 40) :
    (bs.foldl shiftIn sh).getLsbD i
      = if i < bs.length then bs.reverse[i]?.getD false else sh.getLsbD (i - bs.length) := by
  induction bs using List.reverseRecOn generalizing i with
  | nil => simp
  | append_singleton bs b ih =>
    rw [List.foldl_append, List.foldl_cons, List.foldl_nil]
    cases i with
    | zero => rw [shiftIn_getLsbD_zero]; simp
    | succ i =>
      rw [shiftIn_getLsbD_succ _ _ _ (by omega), ih i (by omega)]
      simp

/-- A frame's bits in arrival order, shifted into a clear register, are the frame. -/
theorem foldl_shiftIn_arrivalBits (f : Frame) : (arrivalBits f).foldl shiftIn 0#40 = f := by
  apply BitVec.eq_of_getLsbD_eq
  intro i hi
  have hlen : (arrivalBits f).length = 40 := by simp [arrivalBits]
  rw [foldl_shiftIn_getLsbD _ _ _ hi, hlen, if_pos hi, List.getElem?_reverse (by omega), hlen]
  simp [arrivalBits, show 40 - 1 - i < 40 by omega, show 39 - (40 - 1 - i) = i by omega]

/-- One symbol from BIT_LOW: the reference kept, the bit decided and shifted in, the next position. -/
theorem run_symbol {s : State} {low high rest : List Inputs} {x : Inputs}
    (hp : s.phase = .bitLow) (hc : s.cnt = 0) (ha : low.length ≤ s.params.cycleBudget - 1)
    (h1 : 1 ≤ high.length) (hh : high.length ≤ s.params.cycleBudget) (hin : s.inputs = low ++ high ++ x :: rest)
    (hlow : ∀ y ∈ low, y.rst = false ∧ y.line = .low) (hhigh : ∀ y ∈ high, y.rst = false ∧ y.line = .high)
    (hxr : x.rst = false) (hxl : x.line = .low) :
    runTicks (low.length + 1 + high.length) s = .next (nextPosition { s with
      phase := .bitHigh, cnt := 0, refCnt := low.length
      sh := shiftIn s.sh (decide (low.length < high.length - 1)), inputs := rest
      tick := s.tick + (low.length + 1 + high.length) }) := by
  obtain ⟨y, high', rfl⟩ := List.exists_cons_of_length_pos h1
  have hy := hhigh y (by simp)
  have r1 := run_count (s := s) (pulse := low) (x := y) (rest := high' ++ x :: rest) (by simp [hp, Phase.measures])
    hc ha (by simpa using hin) (by simpa [hp] using hlow) hy.1 (by simp [hp, hy.2])
  rw [onCount_bitLow (s := { s with
    cnt := low.length, inputs := y :: (high' ++ x :: rest), tick := s.tick + low.length }) hp] at r1
  have r2 := run_count (s := State.advance { s with
      cnt := 0, refCnt := low.length, phase := .bitHigh, inputs := y :: (high' ++ x :: rest),
      tick := s.tick + low.length })
    (pulse := high') (x := x) (rest := rest) rfl rfl (by simp at hh; simp; omega) (by simp)
    (by intro z hz; simpa using hhigh z (by simp [hz])) hxr (by simp [hxl])
  refine (show low.length + 1 + (y :: high').length = low.length + 1 + (high'.length + 1) by simp) ▸
    (runTicks_add _ _ r1).trans (r2.trans ?_)
  simp [onCount, nextPosition, decideBit]
  split <;> simp [State.advance, Nat.add_assoc]

/-- The ticks of a run of equal samples, apart from the ticks after it. -/
theorem split_run {xs : List Inputs} {l : Level} {n : Nat} {ys : List Level}
    (h : xs.map Inputs.line = List.replicate n l ++ ys) :
    ∃ p q, xs = p ++ q ∧ p.length = n ∧ (∀ y ∈ p, y.line = l) ∧ q.map Inputs.line = ys := by
  obtain ⟨p, q, rfl, hp, hq⟩ := List.map_eq_append_iff.mp h
  have hl := congrArg List.length hp
  simp only [List.length_map, List.length_replicate] at hl
  refine ⟨p, q, rfl, hl, fun y hy => ?_, hq⟩
  have : y.line ∈ List.replicate n l := hp ▸ List.mem_map_of_mem hy
  exact (List.mem_replicate.mp this).2

/-- The last sample of what follows a symbol begins the next low pulse. -/
theorem symbols_begin_low {ss : List (Nat × Nat)} {x : Inputs} {q : List Inputs} (h : ∀ p ∈ ss, 1 ≤ p.1)
    (hl : (x :: q).map Inputs.line = samples (symbolsRuns ss) ++ [.low]) : x.line = .low := by
  cases ss with
  | nil => simp [symbolsRuns, samples] at hl; exact hl.1
  | cons p ss =>
    obtain ⟨d, hd⟩ : ∃ d, p.1 = d + 1 := ⟨p.1 - 1, by have := h p (by simp); omega⟩
    simp [symbolsRuns, symbolRuns, samples, hd, List.replicate_succ] at hl
    exact hl.1

/-- The rest of the bit loop, from the first sample that BIT_LOW at position `40 - ss.length` reads: its symbol's low
pulse has lost one sample to the measurement before. -/
theorem run_symbols (ss : List (Nat × Nat)) (s : State) (xs rest : List Inputs) (hne : ss ≠ [])
    (hlen : s.bitIdx.val + ss.length = 40) (hp : s.phase = .bitLow) (hc : s.cnt = 0)
    (hb : ∀ p ∈ ss, 1 ≤ p.1 ∧ p.1 ≤ s.params.cycleBudget - 1 ∧ 1 ≤ p.2 ∧ p.2 ≤ s.params.cycleBudget - 1)
    (hin : s.inputs = xs ++ rest) (hr : ∀ x ∈ xs, x.rst = false)
    (hl : .low :: xs.map Inputs.line = samples (symbolsRuns ss) ++ [.low]) :
    ∃ t, runTicks xs.length s = .next t ∧ t.phase = .checksum
      ∧ t.sh = (ss.map fun p => decide (p.1 < p.2)).foldl shiftIn s.sh
      ∧ t.frame40 = s.frame40 ∧ t.frameValid = s.frameValid ∧ t.inputs = rest := by
  induction ss generalizing s xs with
  | nil => exact absurd rfl hne
  | cons p ss ih =>
    obtain ⟨a, c⟩ := p
    obtain ⟨a1, a2, c1, c2⟩ := hb (a, c) (by simp)
    obtain ⟨a, rfl⟩ : ∃ a', a = a' + 1 := ⟨a - 1, by simp at a1; omega⟩
    simp only at a1 a2 c1 c2
    have hl' : xs.map Inputs.line
        = List.replicate a .low ++ (List.replicate c .high ++ (samples (symbolsRuns ss) ++ [.low])) := by
      simpa [symbolsRuns, symbolRuns, samples, List.replicate_succ] using hl
    obtain ⟨low, q, rfl, h1, h2, h3⟩ := split_run hl'
    obtain ⟨high, q, rfl, h4, h5, h6⟩ := split_run h3
    obtain ⟨x, q, rfl⟩ : ∃ x q', q = x :: q' := by
      cases q with
      | nil => simp at h6
      | cons x q => exact ⟨x, q, rfl⟩
    have hx := symbols_begin_low (fun p hp => (hb p (by simp [hp])).1) h6
    have run := run_symbol (s := s) (low := low) (high := high) (x := x) (rest := q ++ rest) hp hc (by omega)
      (by omega) (by omega) (by simpa using hin) (fun y hy => ⟨hr y (by simp [hy]), h2 y hy⟩)
      (fun y hy => ⟨hr y (by simp [hy]), h5 y hy⟩) (hr x (by simp)) hx
    have hd : decide (low.length < high.length - 1) = decide (a + 1 < c) := by
      apply decide_eq_decide.mpr; omega
    rw [hd] at run
    by_cases hn : ss = []
    · subst hn
      have hq : q = [] := by simp [symbolsRuns, samples] at h6; exact h6.2
      subst hq
      have h39 : s.bitIdx = 39 := by apply Fin.ext; simp at hlen; simpa using hlen
      refine ⟨_, (show (low ++ (high ++ [x])).length = low.length + 1 + high.length by simp; omega) ▸ run, ?_⟩
      simp [nextPosition, h39]
    · have h39 : s.bitIdx ≠ 39 := by
        intro h
        have := List.length_pos_of_ne_nil hn
        rw [h] at hlen; simp at hlen; omega
      obtain ⟨e1, e2⟩ := bitIdx_succ h39
      obtain ⟨t, r2, z⟩ := ih (nextPosition { s with
          phase := .bitHigh, cnt := 0, refCnt := low.length, sh := shiftIn s.sh (decide (a + 1 < c)),
          inputs := q ++ rest, tick := s.tick + (low.length + 1 + high.length) }) q hn
        (by simp [nextPosition, h39, e1]; simp at hlen; omega) (by simp [nextPosition, h39])
        (by simp [nextPosition, h39]) (by intro p hp; simpa [nextPosition, h39] using hb p (by simp [hp]))
        (by simp [nextPosition, h39]) (fun y hy => hr y (by simp [hy])) (by simpa [hx] using h6)
      refine ⟨t, (show (low ++ (high ++ x :: q)).length = (low.length + 1 + high.length) + q.length by
        simp; omega) ▸ (runTicks_add _ _ run).trans r2, ?_⟩
      simpa [nextPosition, h39] using z

end Sys2Proof.Machine
end

