-- ==== Sys2Proof/Tests/Slice0.lean ====
section
/-!
SUPPORT. Tests from the words and vectors of spec/, and for every statement with hypotheses a state that meets them.
-/

namespace Sys2Proof.Tests

open Sys2Proof Sys2Proof.Machine

-- ---- words written out from 30_encoding.md R68 and R69 -----------------------------------------------------

theorem test_word_reset : decode (.cmd 0b10#2) = .ok (.reset false) ∧ decode (.cmd 0b11#2) = .ok (.reset true) := by
  decide

theorem test_word_start : decode (.cmd 0b01#2) = .ok .start := by decide

theorem test_word_nop : decode (.cmd 0b00#2) = .ok .nop := by decide

theorem test_word_idle : decode (.phase 0b0000#4) = .ok .idle := by decide

theorem test_word_settle : decode (.phase 0b0001#4) = .ok .settle := by decide

theorem test_word_reqLow : decode (.phase 0b0010#4) = .ok .reqLow := by decide

theorem test_word_reqHigh : decode (.phase 0b0011#4) = .ok .reqHigh := by decide

theorem test_word_measure : decode (.subop 0b0100#4) = .ok (.measure .acknowledge .low)
    ∧ decode (.subop 0b0101#4) = .ok (.measure .acknowledge .high)
    ∧ decode (.subop 0b0110#4) = .ok (.measure .bitSymbol .low)
    ∧ decode (.subop 0b0111#4) = .ok (.measure .bitSymbol .high) := by
  decide

theorem test_word_ackLow : decode (.phase 0b0100#4) = .ok .ackLow := by decide

theorem test_word_ackHigh : decode (.phase 0b0101#4) = .ok .ackHigh := by decide

theorem test_word_bitLow : decode (.phase 0b0110#4) = .ok .bitLow := by decide

theorem test_word_bitHigh : decode (.phase 0b0111#4) = .ok .bitHigh := by decide

theorem test_word_checksum : decode (.phase 0b1000#4) = .ok .checksum := by decide

/-- The first and the last reserved phase code, and a word outside the pattern `01kl`, are refused by name (R70). -/
theorem test_reserved_words : decode (.phase 0b1001#4) = .error (.reservedPhase 9#4)
    ∧ decode (.phase 0b1111#4) = .error (.reservedPhase 15#4)
    ∧ decode (.subop 0b1000#4) = .error (.notMeasuring 8#4) ∧ decode (.subop 0b0011#4) = .error (.notMeasuring 3#4) := by
  decide

/-- Numbers of the opcode table, in the table's own widths. -/
theorem test_table_numbers : decodeTableWord 2 2 = some (.reset false) ∧ decodeTableWord 2 1 = some .start
    ∧ decodeTableWord 2 0 = some .nop ∧ decodeTableWord 8 0 = some .idle ∧ decodeTableWord 8 8 = some .checksum
    ∧ decodeTableWord 8 9 = none ∧ decodeTableWord 8 255 = none := by
  decide

-- ---- well-formedness ---------------------------------------------------------------------------------------

/-- Small parameters: a budget of 3, every timed phase one tick long. -/
def small : Params :=
  { pinId := 0, fTickHz := 100000, cycleBudget := 3, tSettle := 1, tReqLow := 1, tReqHigh := 1 }

/-- The same with timed phases of two ticks. -/
def twoTicks : Params :=
  { small with tSettle := 2, tReqLow := 2, tReqHigh := 2 }

theorem test_params_wf : small.wf ∧ twoTicks.wf := by decide

theorem test_ill_rate : ¬ Params.wf { small with fTickHz := 0 } := by decide

theorem test_ill_budget : ¬ Params.wf { small with cycleBudget := 0 } := by decide

theorem test_ill_settle : ¬ Params.wf { small with tSettle := 0 } := by decide

theorem test_ill_reqLow : ¬ Params.wf { small with tReqLow := 0 } := by decide

theorem test_ill_reqHigh : ¬ Params.wf { small with tReqHigh := 0 } := by decide

theorem test_ill_words : (CodeWord.phase 9#4).wf = false ∧ (CodeWord.subop 3#4).wf = false
    ∧ (CodeWord.subop 8#4).wf = false := by
  decide

/-- A budget of 3 does not span a pulse of 3 samples (70_reset_and_hazards.md R235 (b)). -/
theorem test_ill_budget_span : ¬ small.spans 3 ∧ small.spans 2 := by decide

theorem test_ill_lengths : ¬ goodLengths small 1 2 2 ∧ ¬ goodLengths small 2 1 3 := by decide

-- ---- states ------------------------------------------------------------------------------------------------

/-- A block with everything clear in a phase, and the inputs of its coming ticks. -/
def at' (P : Params) (p : Phase) (inputs : List Inputs) : State :=
  { params := P, phase := p, bitIdx := 0, timer := 0, cnt := 0, refCnt := 0, sh := 0#40, frame40 := 0#40,
    frameValid := false, status := .none, host := { lastAttemptMs := none, lastResult := none },
    inputs := inputs, tick := 0 }

/-- With the parameters of the stimulus programs P6 to P9. -/
def p6 : Params :=
  { pinId := 0, fTickHz := 100000, cycleBudget := 100, tSettle := 1, tReqLow := 100, tReqHigh := 4 }

-- ---- one step, from 95_test_vectors.md ---------------------------------------------------------------------

/-- V-CMD-1: START after a mismatch erases the result. -/
theorem test_start : step { at' p6 .idle [starting .low] with
      status := .failed .checksumMismatch, frame40 := 0x0190806577#40, bitIdx := 39, cnt := 7 }
    = .next { at' p6 .settle [] with tick := 1 } := by
  rfl

/-- V-CMD-2: START while busy is not read. -/
theorem test_start_busy : step { at' p6 .reqLow [starting .low] with timer := 48 }
    = .next { at' p6 .reqLow [] with timer := 49, tick := 1 } := by
  rfl

/-- V-CMD-3: RESET during a read, with either value of `start`. -/
theorem test_reset : step { at' p6 .bitLow [{ rst := true, start := true, line := .low }] with
      bitIdx := 20, sh := 0x1908#40 }
    = .next { at' p6 .idle [] with tick := 1 } := by
  rfl

/-- V-CMD-4: a resting block keeps its result. -/
theorem test_nop : step { at' p6 .idle [quiet .low] with status := .ok, frameValid := true, frame40 := 5#40 }
    = .next { at' p6 .idle [] with status := .ok, frameValid := true, frame40 := 5#40, tick := 1 } := by
  rfl

/-- V-CMD-5: RESET wins over a timeout of the same tick. -/
theorem test_reset_wins : step { at' p6 .ackHigh [{ rst := true, start := false, line := .high }] with cnt := 99 }
    = .next { at' p6 .idle [] with tick := 1 } := by
  rfl

/-- Section 2.2, tick 1: SETTLE of one tick is left for REQ_LOW. -/
theorem test_settle : step (at' p6 .settle [quiet .low]) = .next { at' p6 .reqLow [] with tick := 1 } := by rfl

/-- Section 2.2, tick 101. -/
theorem test_reqLow : step { at' p6 .reqLow [quiet .low] with timer := 99 }
    = .next { at' p6 .reqHigh [] with tick := 1 } := by
  rfl

/-- Section 2.2, tick 105: `cnt` is cleared on leaving. -/
theorem test_reqHigh : step { at' p6 .reqHigh [quiet .low] with timer := 3, cnt := 9 }
    = .next { at' p6 .ackLow [] with tick := 1 } := by
  rfl

/-- V-MEAS-5: the hundredth sample at the other level still ends with a count. -/
theorem test_ackLow_count : step { at' p6 .ackLow [quiet .high] with cnt := 99 }
    = .next { at' p6 .ackHigh [] with tick := 1 } := by
  rfl

/-- V-MEAS-6: the hundredth matching sample is the timeout, `cnt` left at 99. -/
theorem test_ackLow_timeout : step { at' p6 .ackLow [quiet .low] with cnt := 99 }
    = .next { at' p6 .idle [] with cnt := 99, status := .failed .startLowTimeout, tick := 1 } := by
  rfl

/-- P3: the last matching sample of ACK_HIGH. -/
theorem test_ackHigh_timeout : step { at' p6 .ackHigh [quiet .high] with cnt := 99 }
    = .next { at' p6 .idle [] with cnt := 99, status := .failed .startHighTimeout, tick := 1 } := by
  rfl

/-- P6: ACK_HIGH ends and clears `bit_idx`. -/
theorem test_ackHigh_count : step { at' p6 .ackHigh [quiet .low] with cnt := 7, bitIdx := 12 }
    = .next { at' p6 .bitLow [] with tick := 1 } := by
  rfl

/-- P6: the reference count is kept. -/
theorem test_bitLow : step { at' p6 .bitLow [quiet .high] with cnt := 4 }
    = .next { at' p6 .bitHigh [] with refCnt := 4, tick := 1 } := by
  rfl

/-- V-EXC-5. -/
theorem test_bitLow_timeout : step { at' p6 .bitLow [quiet .low] with cnt := 99 }
    = .next { at' p6 .idle [] with cnt := 99, status := .failed .bitTimeout, tick := 1 } := by
  rfl

/-- V-BIT-8 at a middle position, and V-BIT-3's tie. -/
theorem test_bitHigh : step { at' p6 .bitHigh [quiet .low] with cnt := 6, refCnt := 4, bitIdx := 11, sh := 0x14#40 }
      = .next { at' p6 .bitLow [] with refCnt := 4, bitIdx := 12, sh := 0x29#40, tick := 1 }
    ∧ step { at' p6 .bitHigh [quiet .low] with cnt := 49, refCnt := 49, bitIdx := 11, sh := 0x14#40 }
      = .next { at' p6 .bitLow [] with refCnt := 49, bitIdx := 12, sh := 0x28#40, tick := 1 } := by
  exact ⟨rfl, rfl⟩

/-- P1: position 39 leads to CHECKSUM and stays 39. -/
theorem test_bitHigh_last :
    step { at' p6 .bitHigh [quiet .low] with cnt := 69, refCnt := 49, bitIdx := 39, sh := 0x0146008148#40 }
      = .next { at' p6 .checksum [] with refCnt := 49, bitIdx := 39, sh := 0x028C010291#40, tick := 1 } := by
  rfl

/-- V-CHK-1 and V-CHK-6: the carry is dropped. -/
theorem test_checksum_ok : step { at' p6 .checksum [quiet .low] with sh := 0x028C010291#40 }
      = .next { at' p6 .idle [] with
          sh := 0x028C010291#40, frame40 := 0x028C010291#40, frameValid := true, status := .ok, tick := 1 }
    ∧ frameChecks 0x8080000000#40 = true := by
  exact ⟨rfl, rfl⟩

/-- V-CHK-2: the frame is loaded although invalid. -/
theorem test_checksum_mismatch : step { at' p6 .checksum [quiet .low] with sh := 0x028C010290#40 }
    = .next { at' p6 .idle [] with
        sh := 0x028C010290#40, frame40 := 0x028C010290#40, status := .failed .checksumMismatch, tick := 1 } := by
  rfl

/-- V-MEAS-8 and V-MEAS-9: a budget of one. -/
theorem test_budget_one :
    (measureTick .low (at' { small with cycleBudget := 1 } .ackLow [quiet .low])).1 = some .timeout
    ∧ (measureTick .low (at' { small with cycleBudget := 1 } .ackLow [quiet .high])).1 = some (.count 0) := by
  decide

/-- The word of an operation, placed after reset, is run by the next step: one of each format. -/
theorem test_placed_runs : (∃ t, step (State.reset.withFetchWord 2 2) = .next t)
    ∧ (∃ t, step (State.reset.withFetchWord 8 1) = .next t) ∧ (∃ t, step (State.reset.withFetchWord 8 4) = .next t) :=
  ⟨⟨_, rfl⟩, ⟨_, rfl⟩, ⟨_, rfl⟩⟩

/-- V-CONV-1, V-CONV-3, V-CONV-7. -/
theorem test_convert : convert 0x028C010291#40 = .reading 258 652 ∧ convert 0x0190806576#40 = .reading (-101) 400
    ∧ convert 0x0000800080#40 = .reading 0 0 := by
  decide

/-- V-CONV-2, V-CONV-5 and V-CONV-6: both sides of each bound. -/
theorem test_convert_bounds : convert 0x0000032023#40 = .reading 800 0 ∧ convert 0x0000032124#40 = .error .outOfRange
    ∧ convert 0x0000819011#40 = .reading (-400) 0 ∧ convert 0x0000819112#40 = .error .outOfRange
    ∧ convert 0x03E80000EB#40 = .reading 0 1000 ∧ convert 0x03E90000EC#40 = .error .outOfRange := by
  decide

/-- V-HOST-1, calls 1 to 4 and 6. -/
theorem test_too_soon : tooSoon false 5 { lastAttemptMs := none, lastResult := none } = false
    ∧ tooSoon false 1000 { lastAttemptMs := some 5, lastResult := none } = true
    ∧ tooSoon false 2004 { lastAttemptMs := some 5, lastResult := none } = true
    ∧ tooSoon false 2005 { lastAttemptMs := some 5, lastResult := none } = false
    ∧ tooSoon true 2200 { lastAttemptMs := some 2005, lastResult := none } = false := by
  decide

/-- The defaults of 00_scope.md R9 at a rate of 1000.5 Hz: `ceil(1.0005) = 2` and `ceil(0.04002) = 1`. -/
theorem test_defaults_fractional : ceilTicks { num := 2001, den := 2, den_nz := by decide, reduced := by decide } 1 1000 = 2
    ∧ ceilTicks { num := 2001, den := 2, den_nz := by decide, reduced := by decide } 40 1000000 = 1 := by
  decide

/-- The defaults of 00_scope.md R9 at a 1 MHz and a 100 kHz tick. -/
theorem test_defaults : Params.defaults 0 1000000 10
      = { pinId := 0, fTickHz := 1000000, cycleBudget := 1000, tSettle := 10, tReqLow := 1000, tReqHigh := 40 }
    ∧ Params.defaults 0 100000 1 = p6 := by
  decide

-- ---- the hypotheses of the statements can be met -----------------------------------------------------------

theorem witness_StepRunsTheDecodedOperation :
    decode (at' small .ackLow [quiet .low]).fetchWord = .ok .ackLow
    ∧ exec .ackLow (at' small .ackLow [quiet .low]) = .next { at' small .ackLow [quiet .low] with cnt := 1 }
    ∧ (at' small .ackLow [{ rst := true, start := true, line := .low }]).rst = true
    ∧ (at' small .checksum [quiet .low]).rst = false := by
  and_intros <;> rfl

theorem witness_CommandWordSelectsTheSameTick :
    decode (at' small .ackLow [starting .low]).commandWord = .ok .start
    ∧ decode (at' small .idle [quiet .low]).commandWord = .ok .nop
    ∧ decode (at' small .bitHigh [{ rst := true, start := true, line := .low }]).commandWord = .ok (.reset true)
    ∧ (at' small .bitHigh []).phase ≠ .idle := by
  decide

theorem witness_ResetClearsEverythingInAnyPhase :
    (at' small .bitHigh [{ rst := true, start := false, line := .low }]).rst = true := by
  decide

theorem witness_StartInIdleClearsAndBegins :
    (at' small .idle [starting .low]).phase = .idle ∧ (at' small .idle [starting .low]).rst = false
    ∧ (at' small .idle [starting .low]).start = true
    ∧ exec .start (at' small .idle [starting .low]) = .next (at' small .settle [starting .low]) := by
  and_intros <;> rfl

theorem witness_NopRestsAndStartWhileBusyIsIgnored :
    (at' small .idle [quiet .low]).phase = .idle ∧ (at' small .idle [quiet .low]).rst = false
    ∧ (at' small .idle [quiet .low]).start = false ∧ (at' small .checksum [starting .low]).phase ≠ .idle := by
  decide

theorem witness_IdleWaitsForStart :
    (at' small .idle [starting .low]).start = true ∧ (at' small .idle [quiet .low]).start = false := by
  decide

theorem witness_SettleTickCountsThenLeaves :
    (at' twoTicks .settle []).timer + 1 < twoTicks.tSettle
    ∧ State.timer { at' twoTicks .settle [] with timer := 1 } = twoTicks.tSettle - 1 := by
  decide

theorem witness_ReqLowTickCountsThenLeaves :
    (at' twoTicks .reqLow []).timer + 1 < twoTicks.tReqLow
    ∧ State.timer { at' twoTicks .reqLow [] with timer := 1 } = twoTicks.tReqLow - 1 := by
  decide

theorem witness_ReqHighTickCountsThenLeaves :
    (at' twoTicks .reqHigh []).timer + 1 < twoTicks.tReqHigh
    ∧ State.timer { at' twoTicks .reqHigh [] with timer := 1 } = twoTicks.tReqHigh - 1 := by
  decide

theorem witness_TimedPhaseLastsItsLength :
    twoTicks.wf ∧ Phase.settle.timedLength twoTicks = some 2 ∧ Phase.reqLow.timedLength twoTicks = some 2
    ∧ Phase.reqHigh.timedLength twoTicks = some 2 ∧ (at' twoTicks .settle [quiet .low, quiet .low]).timer = 0
    ∧ (at' twoTicks .settle [quiet .low, quiet .low]).NoReset 2
    ∧ exec .start (at' twoTicks .idle []) = .next (at' twoTicks .settle []) := by
  and_intros <;> first | rfl | decide

/-- A START and three more ticks: with `small`, `t_listen` is 4. -/
def request : List Inputs := [starting .low, quiet .low, quiet .low, quiet .low]

theorem witness_FirstSampleIsAtTListen :
    small.wf ∧ (at' small .idle request).AcceptsStart ∧ (at' small .idle request).NoReset small.tListen := by
  decide

/-- The last count before the budget, the timeout, and the other level at the largest count. -/
theorem witness_MeasureTickWritesOnlyTheCount :
    State.lineSample { at' small .ackLow [quiet .low] with cnt := 1 } = .low ∧ 1 + 1 < small.cycleBudget
    ∧ 2 = small.cycleBudget - 1 ∧ State.lineSample { at' small .ackLow [quiet .high] with cnt := 2 } ≠ .low := by
  decide

/-- The largest and the smallest count. -/
theorem witness_MeasurementCountsMatchingSamples :
    Phase.bitHigh.measures = true ∧ 2 ≤ small.cycleBudget - 1
    ∧ (at' small .bitHigh [quiet .high, quiet .high, quiet .low]).inputs
        = [quiet .high, quiet .high] ++ quiet .low :: []
    ∧ (∀ y ∈ [quiet .high, quiet .high], y.rst = false ∧ y.line = Phase.bitHigh.expectedLevel)
    ∧ (quiet .low).rst = false ∧ (quiet .low).line ≠ Phase.bitHigh.expectedLevel
    ∧ (at' small .bitHigh [quiet .low]).inputs = [] ++ quiet .low :: [] := by
  decide

theorem witness_MeasurementTimesOutAtTheBudget :
    small.wf ∧ Phase.ackHigh.timeoutFailure = some .startHighTimeout
    ∧ (at' small .ackHigh [quiet .high, quiet .high, quiet .high]).NoReset small.cycleBudget
    ∧ (∀ y ∈ (at' small .ackHigh [quiet .high, quiet .high, quiet .high]).inputs.take small.cycleBudget,
        y.line = Phase.ackHigh.expectedLevel) := by
  decide

theorem witness_AckLowTick :
    (at' small .ackLow [quiet .low]).lineSample = .low ∧ 1 + 1 < small.cycleBudget ∧ 2 = small.cycleBudget - 1
    ∧ (at' small .ackLow [quiet .high]).lineSample = .high := by
  decide

theorem witness_AckHighTick :
    (at' small .ackHigh [quiet .high]).lineSample = .high ∧ 1 + 1 < small.cycleBudget ∧ 2 = small.cycleBudget - 1
    ∧ (at' small .ackHigh [quiet .low]).lineSample = .low := by
  decide

theorem witness_BitLowTick :
    (at' small .bitLow [quiet .low]).lineSample = .low ∧ 1 + 1 < small.cycleBudget ∧ 2 = small.cycleBudget - 1
    ∧ (at' small .bitLow [quiet .high]).lineSample = .high := by
  decide

/-- BIT_HIGH with a low sample, at a position, a count and a reference. -/
def deciding (k : Fin 40) (c r : Nat) : State :=
  { at' small .bitHigh [quiet .low] with bitIdx := k, cnt := c, refCnt := r }

/-- Positions 38 and 39; counts just above the reference, and a tie. -/
theorem witness_BitHighTick :
    (at' small .bitHigh [quiet .high]).lineSample = .high ∧ 1 + 1 < small.cycleBudget ∧ 2 = small.cycleBudget - 1
    ∧ (deciding 38 2 1).lineSample = .low ∧ (deciding 38 2 1).bitIdx.val < 39
    ∧ (deciding 38 2 1).refCnt < (deciding 38 2 1).cnt
    ∧ (deciding 38 2 2).bitIdx.val < 39 ∧ (deciding 38 2 2).cnt ≤ (deciding 38 2 2).refCnt
    ∧ (deciding 39 1 0).bitIdx = 39 ∧ (deciding 39 1 0).refCnt < (deciding 39 1 0).cnt
    ∧ (deciding 39 0 0).cnt ≤ (deciding 39 0 0).refCnt := by
  decide

/-- The shortest reference with the longest data pulse, and the reverse. -/
theorem witness_SymbolDecidesByPulseLength :
    (1 ≤ small.cycleBudget ∧ 3 ≤ small.cycleBudget
      ∧ (at' small .bitLow [quiet .high, quiet .high, quiet .high, quiet .low]).inputs
          = [] ++ [quiet .high, quiet .high, quiet .high] ++ quiet .low :: [] ∧ ([] : List Inputs).length = 1 - 1
      ∧ ∀ y ∈ [quiet .high, quiet .high, quiet .high], y.rst = false ∧ y.line = .high)
    ∧ (at' small .bitLow [quiet .low, quiet .low, quiet .high, quiet .low]).inputs
          = [quiet .low, quiet .low] ++ [quiet .high] ++ quiet .low :: [] ∧ [quiet .low, quiet .low].length = 3 - 1
      ∧ (∀ y ∈ [quiet .low, quiet .low], y.rst = false ∧ y.line = .low) ∧ (quiet .low).line = .low := by
  decide

theorem witness_ChecksumTick : SumHolds 0x028C010291#40 ∧ ¬ SumHolds 0x028C010290#40 := by decide

theorem witness_ExactlyOneFifthBytePasses :
    State.sh { at' small .checksum [] with sh := 0x028C010291#40 }
      = (0x02#8 : Byte) ++ (0x8C#8 : Byte) ++ (0x01#8 : Byte) ++ (0x02#8 : Byte) ++ (0x91#8 : Byte) := by
  decide

theorem witness_FramePacksArrivalOrder : 0 / 8 = (0 : Fin 5).val ∧ 39 < 40 ∧ 39 / 8 = (4 : Fin 5).val := by decide

/-- Each value of `status`. -/
theorem witness_OutputsFollowPhaseAndResult :
    ∀ v : Status, State.status { at' small .idle [] with status := v } = v := fun _ => rfl

/-- Each measuring phase at its last sample of the budget; `witness_ChecksumTick` has a frame that mismatches. -/
theorem witness_FailureEntryWritesStatusAndPhase :
    ∀ p : Phase, p.measures = true →
      State.ResultInv { at' small p [quiet p.expectedLevel] with cnt := 2 } ∧ p.timeoutFailure.isSome = true
      ∧ State.lineSample { at' small p [quiet p.expectedLevel] with cnt := 2 } = p.expectedLevel
      ∧ 2 = small.cycleBudget - 1 := by
  intro p hp
  cases p <;> revert hp <;> decide

theorem witness_ControlMovesOnlyByTheTable :
    step (at' small .reqHigh [quiet .low]) = .next { at' small .ackLow [] with tick := 1 }
    ∧ (at' small .reqHigh [quiet .low]).rst = false
    ∧ step (at' small .reqHigh [{ rst := true, start := false, line := .low }])
        = .next { at' small .idle [] with tick := 1 } := by
  and_intros <;> rfl

/-- Every element is written somewhere: `bit_idx`, `cnt` and `sh` in BIT_HIGH, `timer` in SETTLE, `ref_cnt` in BIT_LOW,
the result in CHECKSUM. -/
theorem witness_ElementsAreWrittenOnlyByTheirOperations :
    step { deciding 3 2 1 with tick := 0 }
      = .next { at' small .bitLow [] with bitIdx := 4, refCnt := 1, sh := 1#40, tick := 1 }
    ∧ step (at' twoTicks .settle [quiet .low]) = .next { at' twoTicks .settle [] with timer := 1, tick := 1 }
    ∧ step { at' small .bitLow [quiet .high] with cnt := 2 }
      = .next { at' small .bitHigh [] with refCnt := 2, tick := 1 }
    ∧ step { at' small .checksum [quiet .low] with sh := 0x8080000000#40 }
      = .next { at' small .idle [] with
          sh := 0x8080000000#40, frame40 := 0x8080000000#40, frameValid := true, status := .ok, tick := 1 } := by
  and_intros <;> rfl

theorem witness_LineIsReadOnlyInMeasuringPhases :
    Phase.idle.measures = false ∧ Phase.checksum.measures = false ∧ Phase.reqLow.lineOe = true := by
  decide

/-- `crit` rises on leaving SETTLE; it falls into CHECKSUM, at a timeout, and by RESET. -/
theorem witness_CritRisesAfterSettleAndIsAlwaysReleased :
    step (at' small .settle [quiet .low]) = .next { at' small .reqLow [] with tick := 1 }
    ∧ (at' small .settle [quiet .low]).outputs.crit = false ∧ (at' small .reqLow []).outputs.crit = true
    ∧ step (deciding 39 0 0) = .next { at' small .checksum [] with bitIdx := 39, tick := 1 }
    ∧ step { at' small .ackLow [quiet .low] with cnt := 2 }
      = .next { at' small .idle [] with cnt := 2, status := .failed .startLowTimeout, tick := 1 }
    ∧ step (at' small .ackLow [{ rst := true, start := false, line := .low }])
      = .next { at' small .idle [] with tick := 1 }
    ∧ (deciding 39 0 0).phase = .bitHigh ∧ (deciding 39 0 0).bitIdx = 39 ∧ (deciding 39 0 0).lineSample = .low
    ∧ (at' small .ackLow [quiet .low]).lineSample = Phase.ackLow.expectedLevel ∧ 2 = small.cycleBudget - 1
    ∧ (at' small .ackLow [{ rst := true, start := false, line := .low }]).rst = true := by
  and_intros <;> rfl

/-- A busy tick that ends the read, and a resting tick. -/
theorem witness_ResultAppearsExactlyWhenBusyFalls :
    State.ResultInv (at' small .checksum [quiet .low])
    ∧ step (at' small .checksum [quiet .low])
      = .next { at' small .idle [] with status := .ok, frameValid := true, tick := 1 }
    ∧ State.ResultInv { at' small .idle [quiet .low] with status := .ok, frameValid := true }
    ∧ (at' small .idle [quiet .low]).start = false ∧ (at' small .idle [quiet .low]).outputs.busy = false := by
  and_intros <;> first | rfl | decide

theorem witness_StepKeepsTheResultInvariant :
    State.ResultInv { deciding 39 2 1 with sh := 1#40 }
    ∧ step { deciding 39 2 1 with sh := 1#40 }
      = .next { at' small .checksum [] with bitIdx := 39, refCnt := 1, sh := 3#40, tick := 1 } := by
  and_intros <;> first | rfl | decide

theorem witness_StepKeepsTheTimerInvariant :
    twoTicks.wf ∧ State.TimerInv { at' twoTicks .reqHigh [quiet .low] with timer := 1 }
    ∧ step { at' twoTicks .reqHigh [quiet .low] with timer := 1 } = .next { at' twoTicks .ackLow [] with tick := 1 } :=
  ⟨by decide, show 1 < 2 by decide, rfl⟩

theorem witness_StepKeepsTheCaptureInvariant :
    State.ResultInv { deciding 38 2 1 with sh := 0x3FFFFFFFFF#40 }
    ∧ State.CaptureInv { deciding 38 2 1 with sh := 0x3FFFFFFFFF#40 }
    ∧ ∃ t, step { deciding 38 2 1 with sh := 0x3FFFFFFFFF#40 } = .next t :=
  ⟨by decide, show _ ∧ _ by decide, step_total _⟩

theorem witness_StepKeepsTheRegisterWidths :
    State.WidthInv { deciding 38 2 3 with timer := 1 } ∧ ∃ t, step { deciding 38 2 3 with timer := 1 } = .next t :=
  ⟨by decide, step_total _⟩

theorem witness_ReachableStatesHaveConsistentResults :
    small.wf ∧ runTicks 2 { State.reset with params := small, inputs := request }
      = .next { at' small .reqLow [quiet .low, quiet .low] with tick := 2 } := by
  exact ⟨by decide, rfl⟩

theorem witness_EveryReadEndsWithinTheBound :
    small.wf ∧ (at' small .idle (starting .low :: List.replicate 250 (quiet .low))).AcceptsStart
    ∧ (at' small .idle (starting .low :: List.replicate 250 (quiet .low))).NoReset small.readBound := by
  refine ⟨by decide, by decide, ?_, fun x hx => ?_⟩
  · show small.readBound ≤ (starting .low :: List.replicate 250 (quiet .low)).length
    rw [List.length_cons, List.length_replicate]
    decide
  obtain rfl | h := List.mem_cons.mp (List.mem_of_mem_take hx)
  · rfl
  · rw [(List.mem_replicate.mp h).2]; rfl

theorem witness_SilentLineFailsWithStartHighTimeout :
    small.wf ∧ (at' small .idle (request ++ List.replicate 4 (quiet .high))).AcceptsStart
    ∧ (at' small .idle (request ++ List.replicate 4 (quiet .high))).NoReset (small.tListen + small.cycleBudget + 1)
    ∧ ∀ x ∈ ((at' small .idle (request ++ List.replicate 4 (quiet .high))).inputs.take
        (small.tListen + small.cycleBudget + 1)).drop small.tListen, x.line = .high := by
  decide

theorem witness_StuckLowLineFailsWithStartLowTimeout :
    small.wf ∧ (at' small .idle (request ++ List.replicate 3 (quiet .low))).AcceptsStart
    ∧ (at' small .idle (request ++ List.replicate 3 (quiet .low))).NoReset (small.tListen + small.cycleBudget)
    ∧ ∀ x ∈ ((at' small .idle (request ++ List.replicate 3 (quiet .low))).inputs.take
        (small.tListen + small.cycleBudget)).drop small.tListen, x.line = .low := by
  decide

/-- The frame of V-CHK-6 at the shortest lengths that tell 0 from 1, with no acknowledge low pulse at all. -/
def symbols : List (Nat × Nat) := frameSymbols 0x8080000000#40 1 1 2

/-- The samples of its response. -/
def response : List Inputs := (samples (responseRuns 0 1 symbols)).map quiet

theorem witness_WaveformOfAFrameDecodesToIt :
    small.wf ∧ (at' small .idle (request ++ response ++ [quiet .low])).AcceptsStart
    ∧ 0 ≤ small.cycleBudget - 1 ∧ 1 ≤ small.cycleBudget - 1
    ∧ (∀ p ∈ symbols, 1 ≤ p.1 ∧ p.1 ≤ small.cycleBudget - 1 ∧ 1 ≤ p.2 ∧ p.2 ≤ small.cycleBudget - 1)
    ∧ symbols.map (fun p => decide (p.1 < p.2)) = arrivalBits 0x8080000000#40
    ∧ request.length = small.tListen ∧ (∀ x ∈ request ++ response, x.rst = false)
    ∧ response.map Inputs.line = samples (responseRuns 0 1 symbols)
    ∧ SumHolds 0x8080000000#40 ∧ ¬ SumHolds 0x8080000001#40 := by
  decide

/-- Two blocks with different histories and different levels before `t_listen`. -/
theorem witness_ReadsOfEqualSamplesAreEqual :
    small.wf ∧ (at' small .idle (request ++ [quiet .high])).AcceptsStart
    ∧ State.AcceptsStart { at' small .idle (starting .high :: request.tail ++ [quiet .high]) with
        status := .ok, frameValid := true }
    ∧ (at' small .idle (request ++ [quiet .high])).NoReset 5
    ∧ (at' small .idle (starting .high :: request.tail ++ [quiet .high])).NoReset 5
    ∧ small.tListen = 4 ∧ (request ++ [quiet .high])[4]? = (starting .high :: request.tail ++ [quiet .high])[4]?
    ∧ (∀ k, 1 ≤ k → k < 5 → ∃ u, runTicks k (at' small .idle (request ++ [quiet .high])) = .next u ∧ u.phase ≠ .idle) := by
  refine ⟨by decide, by decide, by decide, by decide, by decide, rfl, rfl, fun k h1 h2 => ?_⟩
  obtain rfl | rfl | rfl | rfl : k = 1 ∨ k = 2 ∨ k = 3 ∨ k = 4 := by omega
  all_goals exact ⟨_, rfl, by decide⟩

theorem witness_RegisterWidthsAreTheLeast : small.cycleBudget ≤ 2 ^ 2 ∧ ¬ small.cycleBudget ≤ 2 ^ 1 := by decide

theorem witness_DefaultLengthsRoundUp : (0 : Rat) < 100000 ∧ 1 ≤ 1 ∧ (Params.defaults 0 100000 1).cycleBudget = 100 := by
  decide

/-- Both bounds of the temperature and the upper bound of the humidity, and one step past each. -/
theorem witness_ConverterAcceptsExactlyTheRange :
    (frameByte 0x0000032023#40 2).toNat % 128 * 256 + (frameByte 0x0000032023#40 3).toNat = 800
    ∧ (frameByte 0x0000819011#40 2).toNat % 128 * 256 + (frameByte 0x0000819011#40 3).toNat = 400
    ∧ 128 ≤ (frameByte 0x0000819011#40 2).toNat
    ∧ (frameByte 0x03E80000EB#40 0).toNat * 256 + (frameByte 0x03E80000EB#40 1).toNat = 1000
    ∧ (frameByte 0x0000032124#40 2).toNat % 128 * 256 + (frameByte 0x0000032124#40 3).toNat = 801
    ∧ (frameByte 0x03E90000EC#40 0).toNat * 256 + (frameByte 0x03E90000EC#40 1).toNat = 1001 := by
  decide

/-- A block whose host has a result of time 5. -/
def afterFirst : State :=
  { at' small .idle [] with host := { lastAttemptMs := some 5, lastResult := some (.error (.block .bitTimeout)) } }

/-- At once, at the last early millisecond, at 2000 ms, and with no attempt yet. -/
theorem witness_EarlyCallsReturnTheLastResult :
    afterFirst.host.lastAttemptMs = some 5 ∧ afterFirst.host.lastResult = some (.error (.block .bitTimeout))
    ∧ 5 ≤ 5 ∧ 5 < 5 + 2000 ∧ 2004 < 5 + 2000 ∧ 5 + 2000 ≤ 2005
    ∧ (at' small .idle []).host.lastAttemptMs = none
    ∧ hostRead false 2004 afterFirst = some (.error (.block .bitTimeout), afterFirst) := by
  decide

theorem witness_EveryReadCallReturns :
    small.wf ∧ afterFirst.ResultInv ∧ afterFirst.TimerInv ∧ afterFirst.HostInv
    ∧ tooSoon false 2005 afterFirst.host = false :=
  ⟨by decide, by decide, rfl, by decide, by decide⟩

end Sys2Proof.Tests
end

section
/-!
The parameters of 00_scope.md R9: the register widths are the least, the default lengths round up.
-/

namespace Sys2Proof

/-- The width found is the least of at least one bit that holds `n` values. -/
theorem bitsFor_le_of_le_two_pow {n w : Nat} (hw : 1 ≤ w) (h : n ≤ 2 ^ w) : bitsFor n ≤ w := by
  suffices hlog : Nat.log2 (n - 1) < w from hlog
  by_cases h0 : n - 1 = 0
  · rw [h0, Nat.log2_zero]
    exact hw
  · exact (Nat.log2_lt h0).mpr (by omega)

/-- `ceilTicks_le_iff` with the duration written as a quotient. -/
theorem ceilTicks_le_iff_mul_div (rate : Rat) (a b n : Nat) (hb : 0 < b) :
    ceilTicks rate a b ≤ n ↔ rate * (a / b) ≤ n := by
  rw [ceilTicks_le_iff rate a b n hb, ← mul_div_assoc, div_le_iff₀ (by exact_mod_cast hb)]

/-- At a positive rate and settle delay the default parameters are legal. -/
theorem Params.defaults_wf (pin : Nat) {settle : Nat} {f : Rat} (hf : 0 < f) (hs : 1 ≤ settle) :
    (Params.defaults pin f settle).wf :=
  have hms : 1 ≤ ceilTicks f 1 1000 := one_le_ceilTicks hf (by decide) (by decide)
  ⟨hf, hms, hs, hms, one_le_ceilTicks hf (by decide) (by decide)⟩

/-- Settles O46: `CNT_W` and `TIMER_W` are both the width `bitsFor` finds. -/
theorem registerWidthsAreTheLeast : Obligations.RegisterWidthsAreTheLeast := by
  have least (n : Nat) : 1 ≤ bitsFor n ∧ n ≤ 2 ^ bitsFor n ∧ ∀ w, 1 ≤ w → n ≤ 2 ^ w → bitsFor n ≤ w :=
    ⟨one_le_bitsFor n, le_two_pow_bitsFor n, fun _ => bitsFor_le_of_le_two_pow⟩
  exact fun p => ⟨least p.cycleBudget, least (max p.tSettle (max p.tReqLow p.tReqHigh))⟩

/-- Settles O47: each default length is a `ceilTicks`, of 1/1000 s or of 40/1000000 s. -/
theorem defaultLengthsRoundUp : Obligations.DefaultLengthsRoundUp := by
  intro pin settle n f
  have hms : ceilTicks f 1 1000 ≤ n ↔ f * (1 / 1000) ≤ n := by
    simpa using ceilTicks_le_iff_mul_div f 1 1000 n (by decide)
  have hus : ceilTicks f 40 1000000 ≤ n ↔ f * (40 / 1000000) ≤ n :=
    ceilTicks_le_iff_mul_div f 40 1000000 n (by decide)
  refine ⟨?_, hms, hus, Params.defaults_wf pin⟩
  rw [div_eq_mul_one_div]
  exact hms

end Sys2Proof
end

section
/-!
One tick as an inductive relation, one constructor per kind of tick, and what each kind needs of the phase it runs in.
-/

namespace Sys2Proof.Machine

/-- The phases whose ticks `timer` counts. -/
theorem phase_of_timedLength {p : Phase} {P : Params} {N : Nat} (h : p.timedLength P = some N) :
    p = .settle ∨ p = .reqLow ∨ p = .reqHigh := by
  cases p <;> simp_all [Phase.timedLength]

theorem busy_of_timedLength {p : Phase} {P : Params} {N : Nat} (h : p.timedLength P = some N) : p.busy = true := by
  obtain rfl | rfl | rfl := phase_of_timedLength h <;> rfl

theorem busy_of_measures {p : Phase} (h : p.measures = true) : p.busy = true := by
  obtain rfl | rfl | rfl | rfl := phase_of_measures h <;> rfl

theorem crit_of_measures {p : Phase} (h : p.measures = true) : p.crit = true := by
  obtain rfl | rfl | rfl | rfl := phase_of_measures h <;> rfl

theorem timedLength_of_measures {p : Phase} (P : Params) (h : p.measures = true) : p.timedLength P = none := by
  obtain rfl | rfl | rfl | rfl := phase_of_measures h <;> rfl

/-- A timeout is never a checksum mismatch. -/
theorem timeoutFailure_ne_mismatch {p : Phase} {f : Failure} (h : p.timeoutFailure = some f) :
    f ≠ .checksumMismatch := by
  rintro rfl
  cases p <;> simp [Phase.timeoutFailure] at h

/-- With legal parameters a timed phase lasts at least one tick. -/
theorem timedLength_pos {p : Phase} {P : Params} {N : Nat} (hw : P.wf) (h : p.timedLength P = some N) : 0 < N := by
  obtain ⟨-, -, hS, hL, hH⟩ := hw
  obtain rfl | rfl | rfl := phase_of_timedLength h <;> simp only [Phase.timedLength, Option.some.injEq] at h <;> omega

/-- What a count does in each measuring phase. -/
theorem onCount_cases {s : State} (hm : s.phase.measures = true) :
    (s.phase = .ackLow ∧ onCount s = { s with cnt := 0, phase := .ackHigh })
    ∨ (s.phase = .ackHigh ∧ onCount s = { s with cnt := 0, phase := .bitLow, bitIdx := 0 })
    ∨ (s.phase = .bitLow ∧ onCount s = { s with cnt := 0, refCnt := s.cnt, phase := .bitHigh })
    ∨ (s.phase = .bitHigh ∧ s.bitIdx ≠ 39 ∧ onCount s = { s with
        cnt := 0, sh := shiftIn s.sh (decideBit s.cnt s.refCnt), bitIdx := s.bitIdx + 1, phase := .bitLow })
    ∨ (s.phase = .bitHigh ∧ s.bitIdx = 39 ∧ onCount s = { s with
        cnt := 0, sh := shiftIn s.sh (decideBit s.cnt s.refCnt), phase := .checksum }) := by
  obtain hp | hp | hp | hp := phase_of_measures hm
  · exact .inl ⟨hp, onCount_ackLow hp⟩
  · exact .inr (.inl ⟨hp, onCount_ackHigh hp⟩)
  · exact .inr (.inr (.inl ⟨hp, onCount_bitLow hp⟩))
  · by_cases hi : s.bitIdx = 39
    · exact .inr (.inr (.inr (.inr ⟨hp, hi, onCount_bitHigh_last hp hi⟩)))
    · exact .inr (.inr (.inr (.inl ⟨hp, hi, onCount_bitHigh_more hp hi⟩)))

/-- Whatever the phase, a count clears `cnt` and leaves the parameters, `timer` and the result registers alone. -/
theorem onCount_frame {s : State} (hm : s.phase.measures = true) :
    (onCount s).cnt = 0 ∧ (onCount s).params = s.params ∧ (onCount s).timer = s.timer
    ∧ (onCount s).frame40 = s.frame40 ∧ (onCount s).frameValid = s.frameValid ∧ (onCount s).status = s.status := by
  obtain ⟨-, e⟩ | ⟨-, e⟩ | ⟨-, e⟩ | ⟨-, -, e⟩ | ⟨-, -, e⟩ := onCount_cases hm <;> simp [e]

/-- `Tick s u`: the tick of `s` takes the block to `u`, the clock not yet moved on (10_state.md R30). -/
inductive Tick (s : State) : State → Prop
  /-- RESET (70_reset_and_hazards.md R230). -/
  | reset (hr : s.rst = true) : Tick s (s.clear .idle)
  /-- START is accepted (41_sequencer.md R110). -/
  | accept (ha : s.AcceptsStart) : Tick s (s.clear .settle)
  /-- The block rests in IDLE (R111). -/
  | rest (hr : s.rst = false) (hp : s.phase = .idle) (hs : s.start = false) : Tick s s
  /-- A timed phase goes on (R123). -/
  | timedMore {N : Nat} (hr : s.rst = false) (hN : s.phase.timedLength s.params = some N) (ht : s.timer ≠ N - 1) :
      Tick s { s with timer := increment s.params.timerW s.timer }
  /-- A timed phase ends; `cnt` is cleared on leaving REQ_HIGH (R114, R123). -/
  | timedLast {N : Nat} (hr : s.rst = false) (hN : s.phase.timedLength s.params = some N) (ht : s.timer = N - 1) :
      Tick s { s with
        timer := 0, phase := s.phase.successor s.bitIdx, cnt := if s.phase = .reqHigh then 0 else s.cnt }
  /-- A measurement goes on (40_pulse_timer.md R91). -/
  | matched (hr : s.rst = false) (hm : s.phase.measures = true) (hl : s.lineSample = s.phase.expectedLevel)
      (hc : s.cnt ≠ s.params.cycleBudget - 1) : Tick s { s with cnt := increment s.params.cntW s.cnt }
  /-- A measurement ends with its count (R92). -/
  | count (hr : s.rst = false) (hm : s.phase.measures = true) (hl : s.lineSample ≠ s.phase.expectedLevel) :
      Tick s (onCount s)
  /-- A measurement times out (R93). -/
  | timeout {f : Failure} (hr : s.rst = false) (hm : s.phase.measures = true)
      (hl : s.lineSample = s.phase.expectedLevel) (hc : s.cnt = s.params.cycleBudget - 1)
      (hf : s.phase.timeoutFailure = some f) : Tick s (raiseFailure f s)
  /-- CHECKSUM passes (43_frame_validator.md R161). -/
  | valid (hr : s.rst = false) (hp : s.phase = .checksum) (hk : SumHolds s.sh) :
      Tick s { s with frame40 := s.sh, status := .ok, frameValid := true, phase := .idle }
  /-- CHECKSUM fails (R161, 60_exceptions.md R204). -/
  | mismatch (hr : s.rst = false) (hp : s.phase = .checksum) (hk : ¬ SumHolds s.sh) :
      Tick s (raiseFailure .checksumMismatch { s with frame40 := s.sh })

/-- A tick of a timed phase short of its last, whatever `timer` holds. -/
theorem step_timed_goes_on {s : State} {N : Nat} (hr : s.rst = false) (hN : s.phase.timedLength s.params = some N)
    (ht : s.timer ≠ N - 1) : step s = .next (State.advance { s with timer := increment s.params.timerW s.timer }) := by
  obtain hp | hp | hp := phase_of_timedLength hN <;>
    simp only [hp, Phase.timedLength, Option.some.injEq] at hN <;> subst hN
  · simp [step_settle hr hp, timed, ht]
  · simp [step_reqLow hr hp, timed, ht]
  · exact step_reqHigh_more hr hp ht

/-- A timed phase's step is a tick of one of its two kinds. -/
theorem step_timed_tick {s : State} {N : Nat} (hr : s.rst = false) (hN : s.phase.timedLength s.params = some N) :
    ∃ u, Tick s u ∧ step s = .next u.advance := by
  by_cases ht : s.timer = N - 1
  · exact ⟨_, .timedLast hr hN ht, step_timed_last hr hN ht⟩
  · exact ⟨_, .timedMore hr hN ht, step_timed_goes_on hr hN ht⟩

/-- Every state's step is one of the ticks, then the clock's advance. -/
theorem exists_tick (s : State) : ∃ u, Tick s u ∧ step s = .next u.advance := by
  obtain ⟨hr, e⟩ | ⟨hr, hp, hs, e⟩ | ⟨hr, hp, hs, e⟩ | ⟨hr, hp, -⟩ | ⟨hr, hp, -⟩ | ⟨hr, hp, -⟩ | ⟨hr, hp, -⟩
    | ⟨hr, hm, hl, e⟩ | ⟨hr, hm, hl, hc, f, hf, e⟩ | ⟨hr, hm, hl, hc, e⟩ | ⟨hr, hp, hk, e⟩ | ⟨hr, hp, hk, e⟩ :=
    step_cases s
  · exact ⟨_, .reset hr, e⟩
  · exact ⟨_, .accept ⟨hp, hr, hs⟩, e⟩
  · exact ⟨_, .rest hr hp hs, e⟩
  · exact step_timed_tick (N := s.params.tSettle) hr (by rw [hp]; rfl)
  · exact step_timed_tick (N := s.params.tReqLow) hr (by rw [hp]; rfl)
  · exact step_timed_tick (N := s.params.tReqHigh) hr (by rw [hp]; rfl)
  · exact step_timed_tick (N := s.params.tReqHigh) hr (by rw [hp]; rfl)
  · exact ⟨_, .count hr hm hl, e⟩
  · exact ⟨_, .timeout hr hm hl hc hf, e⟩
  · exact ⟨_, .matched hr hm hl hc, e⟩
  · exact ⟨_, .valid hr hp ((frameChecks_iff s.sh).mp hk), e⟩
  · exact ⟨_, .mismatch hr hp fun h => by simp [(frameChecks_iff s.sh).mpr h] at hk, e⟩

/-- What a step leads to, by the kind of its tick. -/
theorem step_tick {s t : State} (h : step s = .next t) : ∃ u, Tick s u ∧ t = u.advance := by
  obtain ⟨u, hu, e⟩ := exists_tick s
  exact ⟨u, hu, by simpa [h] using e⟩

end Sys2Proof.Machine
end

section
/-!
The invariants of 10_state.md R28, R13, R12 with R14 to R16, and R10: every tick keeps each of them.
-/

namespace Sys2Proof.Machine

/-- What every tick of `s` gives and the clock's advance keeps holds after the step. -/
theorem tick_invariant {P : State → Prop} (hadv : ∀ u, P u → P u.advance) {s t : State}
    (htick : ∀ u, Tick s u → P u) (h : step s = .next t) : P t := by
  obtain ⟨u, hu, rfl⟩ := step_tick h
  exact hadv u (htick u hu)

/-! The result registers -/

theorem resultInv_clear (s : State) (p : Phase) : (s.clear p).ResultInv := by
  simp [State.ResultInv]

/-- The invariant carries over to a state with the same result registers that is busy only if the first one is and has
`cnt` within the budget. -/
theorem State.ResultInv.of_kept {s u : State} (h : s.ResultInv) (hst : u.status = s.status)
    (hv : u.frameValid = s.frameValid) (hf : u.frame40 = s.frame40)
    (hb : u.phase.busy = true → s.phase.busy = true) (hc : u.cnt ≤ u.params.cycleBudget - 1) : u.ResultInv := by
  obtain ⟨busy, valid, ok, mismatch, other, -, -⟩ := h
  rw [State.ResultInv, hst, hv, hf]
  exact ⟨fun hu => busy (hb hu), valid, ok, mismatch, other, u.bitIdx.is_le, hc⟩

/-- A read may end with the failure `f` when `frame40` fits `f`: 0, or for a mismatch a frame whose sum fails. -/
theorem resultInv_raiseFailure {u : State} {f : Failure} (hv : u.frameValid = false)
    (hk : f = .checksumMismatch → ¬ SumHolds u.frame40) (hf : f ≠ .checksumMismatch → u.frame40 = 0#40)
    (hc : u.cnt ≤ u.params.cycleBudget - 1) : (raiseFailure f u).ResultInv := by
  refine ⟨fun hb => ?_, ?_, fun hs => ?_, fun hs => hk ?_, fun _ hs => hf ?_, u.bitIdx.is_le, hc⟩
  · cases hb
  · simp [hv]
  · cases hs
  · simpa using hs
  · simpa using hs

/-- One more sample of an unfinished measurement stays within the budget. -/
theorem increment_cnt_le {s : State} (h : s.cnt ≤ s.params.cycleBudget - 1) (hc : s.cnt ≠ s.params.cycleBudget - 1) :
    increment s.params.cntW s.cnt ≤ s.params.cycleBudget - 1 := by
  have := increment_le s.params.cntW s.cnt
  omega

theorem tick_keeps_resultInv {s u : State} (h : s.ResultInv) (hu : Tick s u) : u.ResultInv := by
  obtain ⟨busy, -, -, -, -, -, hcnt⟩ := id h
  cases hu with
  | reset | accept => exact resultInv_clear s _
  | rest | timedMore => exact h
  | timedLast hr hN =>
    refine h.of_kept rfl rfl rfl (fun _ => busy_of_timedLength hN) ?_
    show (if s.phase = .reqHigh then 0 else s.cnt) ≤ _
    split <;> omega
  | matched hr hm hl hc => exact h.of_kept rfl rfl rfl id (increment_cnt_le hcnt hc)
  | count hr hm =>
    obtain ⟨hc, -, -, hf, hv, hst⟩ := onCount_frame hm
    exact h.of_kept hst hv hf (fun _ => busy_of_measures hm) (by omega)
  | timeout hr hm hl hc hf =>
    obtain ⟨-, hv, h0⟩ := busy (busy_of_measures hm)
    exact resultInv_raiseFailure hv (fun e => absurd e (timeoutFailure_ne_mismatch hf)) (fun _ => h0) hcnt
  | valid hr hp hk => exact ⟨by simp [Phase.busy], by simp, fun _ => hk, by simp, by simp, s.bitIdx.is_le, hcnt⟩
  | mismatch hr hp hk =>
    obtain ⟨-, hv, -⟩ := busy (by rw [hp]; rfl)
    exact resultInv_raiseFailure hv (fun _ => hk) (fun e => absurd rfl e) hcnt

/-- Settles O36, kind of tick by kind of tick. -/
theorem stepKeepsTheResultInvariant : Obligations.StepKeepsTheResultInvariant :=
  fun _ _ h => tick_invariant (fun _ => id) fun _ => tick_keeps_resultInv h

theorem runTicks_keeps_resultInv {n : Nat} {s t : State} (h : s.ResultInv) (hrun : runTicks n s = .next t) :
    t.ResultInv := by
  induction n generalizing s with
  | zero => cases hrun; exact h
  | succ n ih =>
    obtain ⟨u, hu⟩ := step_total s
    exact ih (stepKeepsTheResultInvariant s u h hu) (runTicks_succ n hu ▸ hrun)

/-- Settles O40: the state after reset is a cleared one. -/
theorem reachableStatesHaveConsistentResults : Obligations.ReachableStatesHaveConsistentResults :=
  fun p inputs _ _ _ => runTicks_keeps_resultInv
    (resultInv_clear { State.reset with params := p, inputs := inputs } .idle)

/-! `timer` -/

theorem timerInv_of_timedLength {s : State} {N : Nat} (hN : s.phase.timedLength s.params = some N) :
    s.TimerInv ↔ s.timer < N := by
  obtain hp | hp | hp := phase_of_timedLength hN <;>
    simp only [hp, Phase.timedLength, Option.some.injEq] at hN <;> simp [State.TimerInv, hp, hN]

theorem timerInv_of_untimed {s : State} (h : s.phase.timedLength s.params = none) : s.TimerInv ↔ s.timer = 0 := by
  cases hp : s.phase <;> simp [Phase.timedLength, hp] at h <;> simp [State.TimerInv, hp]

/-- With legal parameters a cleared `timer` is right in every phase. -/
theorem timerInv_of_timer_eq_zero {s : State} (hw : s.params.wf) (h : s.timer = 0) : s.TimerInv := by
  cases hN : s.phase.timedLength s.params with
  | none => exact (timerInv_of_untimed hN).mpr h
  | some N => exact (timerInv_of_timedLength hN).mpr (h ▸ timedLength_pos hw hN)

theorem tick_keeps_timerInv {s u : State} (hw : s.params.wf) (h : s.TimerInv) (hu : Tick s u) : u.TimerInv := by
  have untimed (hp : s.phase.timedLength s.params = none) : s.timer = 0 := (timerInv_of_untimed hp).mp h
  cases hu with
  | reset | accept | timedLast => exact timerInv_of_timer_eq_zero hw rfl
  | rest => exact h
  | @timedMore N hr hN ht =>
    have hlt := (timerInv_of_timedLength hN).mp h
    have hle := increment_le s.params.timerW s.timer
    refine (timerInv_of_timedLength (N := N) ?_).mpr ?_
    · exact hN
    · show increment s.params.timerW s.timer < N
      omega
  | matched hr hm | timeout hr hm => exact timerInv_of_timer_eq_zero hw (untimed (timedLength_of_measures _ hm))
  | count hr hm =>
    obtain ⟨-, hp, ht, -, -, -⟩ := onCount_frame hm
    exact timerInv_of_timer_eq_zero (hp ▸ hw) (ht.trans (untimed (timedLength_of_measures _ hm)))
  | valid hr hp | mismatch hr hp => exact timerInv_of_timer_eq_zero hw (untimed (by rw [hp]; rfl))

/-- Settles O37: only a timed phase that goes on leaves `timer` other than 0. -/
theorem stepKeepsTheTimerInvariant : Obligations.StepKeepsTheTimerInvariant :=
  fun _ _ hw h => tick_invariant (fun _ => id) fun _ => tick_keeps_timerInv hw h

/-! The capture registers -/

/-- The capture registers as START clears them (41_sequencer.md R110). -/
def State.CaptureClear (s : State) : Prop :=
  s.cnt = 0 ∧ s.refCnt = 0 ∧ s.bitIdx = 0 ∧ s.sh = 0#40

/-- Clear capture registers are right in every phase before CHECKSUM. -/
theorem State.CaptureClear.captureInv {s : State} (h : s.CaptureClear) (hp : s.phase ≠ .checksum) : s.CaptureInv := by
  obtain ⟨hc, hr, hi, hs⟩ := h
  cases hq : s.phase <;> simp_all [State.CaptureInv]

theorem captureClear_of_timedLength {s : State} {N : Nat} (hN : s.phase.timedLength s.params = some N)
    (h : s.CaptureInv) : s.CaptureClear := by
  obtain hp | hp | hp := phase_of_timedLength hN <;> simpa only [State.CaptureClear, State.CaptureInv, hp] using h

theorem successor_ne_checksum {p : Phase} {P : Params} {N : Nat} (hN : p.timedLength P = some N) (k : Fin 40) :
    p.successor k ≠ .checksum := by
  obtain rfl | rfl | rfl := phase_of_timedLength hN <;> simp [Phase.successor]

/-- In a measuring phase the invariant says nothing of `cnt`. -/
theorem captureInv_setCnt {s : State} (hm : s.phase.measures = true) (n : Nat) :
    State.CaptureInv { s with cnt := n } ↔ s.CaptureInv := by
  obtain hp | hp | hp | hp := phase_of_measures hm <;> simp [State.CaptureInv, hp]

/-- One more bit is one more place. -/
theorem shiftIn_lt {sh : Frame} {k : Nat} (h : sh.toNat < 2 ^ k) (b : Bool) : (shiftIn sh b).toNat < 2 ^ (k + 1) := by
  rw [shiftIn_toNat, pow_succ]
  have := Nat.mod_le sh.toNat (2 ^ 39)
  have := b.toNat_lt
  omega

theorem onCount_keeps_captureInv {s : State} (hm : s.phase.measures = true) (hcnt : s.cnt ≤ s.params.cycleBudget - 1)
    (h : s.CaptureInv) : (onCount s).CaptureInv := by
  obtain ⟨hp, e⟩ | ⟨hp, e⟩ | ⟨hp, e⟩ | ⟨hp, hi, e⟩ | ⟨hp, hi, e⟩ := onCount_cases hm <;>
    simp only [State.CaptureInv, hp] at h <;> simp only [State.CaptureInv, e]
  · exact h
  · obtain ⟨-, -, hs⟩ := h
    simp [hs]
  · exact ⟨h, hcnt⟩
  · obtain ⟨hsh, -⟩ := h
    rw [(bitIdx_succ hi).1]
    exact shiftIn_lt hsh _
  · simp [hi]

theorem tick_keeps_captureInv {s u : State} (hcnt : s.cnt ≤ s.params.cycleBudget - 1) (h : s.CaptureInv)
    (hu : Tick s u) : u.CaptureInv := by
  cases hu with
  | reset | timeout | valid | mismatch => trivial
  | accept => exact State.CaptureClear.captureInv ⟨rfl, rfl, rfl, rfl⟩ (by simp)
  | rest | timedMore => exact h
  | timedLast hr hN =>
    obtain ⟨hc, hclear⟩ := captureClear_of_timedLength hN h
    exact State.CaptureClear.captureInv ⟨by simp [hc], hclear⟩ (successor_ne_checksum hN _)
  | matched hr hm => exact (captureInv_setCnt hm _).mpr h
  | count hr hm => exact onCount_keeps_captureInv hm hcnt h

/-- Settles O38: of the result invariant it takes the bound of `cnt`. -/
theorem stepKeepsTheCaptureInvariant : Obligations.StepKeepsTheCaptureInvariant := by
  rintro s t ⟨-, -, -, -, -, -, hcnt⟩ h
  exact tick_invariant (fun _ => id) fun _ => tick_keeps_captureInv hcnt h

/-! The register widths -/

theorem onCount_refCnt {s : State} (hm : s.phase.measures = true) :
    (onCount s).refCnt = s.refCnt ∨ (onCount s).refCnt = s.cnt := by
  obtain ⟨-, e⟩ | ⟨-, e⟩ | ⟨-, e⟩ | ⟨-, -, e⟩ | ⟨-, -, e⟩ := onCount_cases hm <;> simp [e]

theorem tick_keeps_widthInv {s u : State} (h : s.WidthInv) (hu : Tick s u) : u.WidthInv := by
  obtain ⟨ht, hc, hr⟩ := id h
  have zero_fits (w : Nat) : 0 < 2 ^ w := Nat.two_pow_pos w
  cases hu with
  | reset | accept => exact ⟨zero_fits _, zero_fits _, zero_fits _⟩
  | rest | timeout | valid | mismatch => exact h
  | timedMore => exact ⟨increment_lt _ _, hc, hr⟩
  | timedLast =>
    refine ⟨zero_fits _, ?_, hr⟩
    show (if s.phase = .reqHigh then 0 else s.cnt) < _
    split
    · exact zero_fits _
    · exact hc
  | matched => exact ⟨ht, increment_lt _ _, hr⟩
  | count _ hm =>
    obtain ⟨hc0, hp, ht', -, -, -⟩ := onCount_frame hm
    rw [State.WidthInv, hc0, hp, ht']
    refine ⟨ht, zero_fits _, ?_⟩
    obtain e | e := onCount_refCnt hm <;> rw [e] <;> assumption

/-- Settles O39: each new value is 0, an increment within the width, or a value that was there. -/
theorem stepKeepsTheRegisterWidths : Obligations.StepKeepsTheRegisterWidths :=
  fun _ _ h => tick_invariant (fun _ => id) fun _ => tick_keeps_widthInv h

end Sys2Proof.Machine
end

section
/-!
What one tick writes (10_state.md R10), when `crit` changes (R21), what stays outside the block (R9, R27, log 12), and
the outputs (R22).
-/

namespace Sys2Proof.Machine

/-! The elements a tick writes -/

/-- Settles O31, kind of tick by kind of tick. -/
theorem elementsAreWrittenOnlyByTheirOperations : Obligations.ElementsAreWrittenOnlyByTheirOperations := by
  intro s t h hr hs
  obtain ⟨u, hu, rfl⟩ := step_tick h
  cases hu with
  | reset hr' => simp [hr] at hr'
  | accept ha =>
    obtain ⟨hp, -, hstart⟩ := ha
    exact absurd ⟨hp, hstart⟩ hs
  | rest => simp
  | timedMore _ hN => simp [phase_of_timedLength hN]
  | timedLast _ hN => simp +contextual [phase_of_timedLength hN]
  | matched _ hm | timeout _ hm => simp [hm]
  | count _ hm =>
    obtain ⟨hp, e⟩ | ⟨hp, e⟩ | ⟨hp, e⟩ | ⟨hp, -, e⟩ | ⟨hp, -, e⟩ := onCount_cases hm <;> simp [e, hp, Phase.measures]
  | valid _ hp | mismatch _ hp => simp [hp]

/-! `crit` -/

theorem crit_rises {s t : State} (h : step s = .next t) (h0 : s.phase.crit = false) (h1 : t.phase.crit = true) :
    s.phase = .settle ∧ s.timer = s.params.tSettle - 1 ∧ t.phase = .reqLow := by
  obtain ⟨u, hu, rfl⟩ := step_tick h
  cases hu with
  | reset | accept | timeout | valid | mismatch => cases h1
  | rest | timedMore => simp [h0] at h1
  | timedLast _ hN ht =>
    obtain hp | hp | hp := phase_of_timedLength hN
    · simp only [hp, Phase.timedLength, Option.some.injEq] at hN
      exact ⟨hp, hN ▸ ht, by simp [hp, Phase.successor]⟩
    · simp [hp, Phase.crit] at h0
    · simp [hp, Phase.crit] at h0
  | matched _ hm | count _ hm => simp [crit_of_measures hm] at h0

theorem crit_falls {s t : State} (h : step s = .next t) (h1 : s.phase.crit = true) (h0 : t.phase.crit = false) :
    s.rst = true ∨ (s.phase = .bitHigh ∧ t.phase = .checksum)
    ∨ (t.phase = .idle ∧ ∃ f, s.phase.timeoutFailure = some f ∧ t.status = .failed f) := by
  obtain ⟨u, hu, rfl⟩ := step_tick h
  cases hu with
  | reset hr => exact .inl hr
  | accept ha => simp [ha.1, Phase.crit] at h1
  | rest | timedMore | matched => simp [h1] at h0
  | timedLast _ hN =>
    obtain hp | hp | hp := phase_of_timedLength hN
    · simp [hp, Phase.crit] at h1
    · simp [hp, Phase.successor, Phase.crit] at h0
    · simp [hp, Phase.successor, Phase.crit] at h0
  | count _ hm =>
    obtain ⟨-, e⟩ | ⟨-, e⟩ | ⟨-, e⟩ | ⟨-, -, e⟩ | ⟨hp, -, e⟩ := onCount_cases hm
    · simp [e, Phase.crit] at h0
    · simp [e, Phase.crit] at h0
    · simp [e, Phase.crit] at h0
    · simp [e, Phase.crit] at h0
    · exact .inr (.inl ⟨hp, by simp [e]⟩)
  | timeout _ _ _ _ hf => exact .inr (.inr ⟨rfl, _, hf, rfl⟩)
  | valid _ hp | mismatch _ hp => simp [hp, Phase.crit] at h1

theorem crit_after_reset {s t : State} (h : step s = .next t) (hr : s.rst = true) : t.phase.crit = false := by
  cases (step_reset hr).symm.trans h
  rfl

theorem crit_after_last_position {s t : State} (h : step s = .next t) (hp : s.phase = .bitHigh) (hi : s.bitIdx = 39)
    (hl : s.lineSample = .low) : t.phase.crit = false := by
  cases hr : s.rst with
  | true => exact crit_after_reset h hr
  | false =>
    cases (step_measure_ends hr (by rw [hp]; rfl) (by simp [hp, hl])).symm.trans h
    rw [onCount_bitHigh_last hp hi]
    rfl

theorem crit_after_timeout {s t : State} (h : step s = .next t) (hm : s.phase.measures = true)
    (hl : s.lineSample = s.phase.expectedLevel) (hc : s.cnt = s.params.cycleBudget - 1) : t.phase.crit = false := by
  cases hr : s.rst with
  | true => exact crit_after_reset h hr
  | false =>
    obtain ⟨f, hf⟩ := timeoutFailure_of_measures hm
    cases (step_measure_timeout hr hf hl hc).symm.trans h
    rfl

/-- Settles O33: rise and fall by the kind of the tick, each release from the step it names. -/
theorem critRisesAfterSettleAndIsAlwaysReleased : Obligations.CritRisesAfterSettleAndIsAlwaysReleased :=
  fun _ _ h => ⟨crit_rises h, crit_falls h, crit_after_reset h, crit_after_last_position h, crit_after_timeout h⟩

/-! The step and the operations: totality and what lies outside the block -/

/-- Settles O3: `step` decodes the fetched word and advances the clock. -/
theorem stepRunsTheDecodedOperation : Obligations.StepRunsTheDecodedOperation := by
  refine ⟨fun s i hi => ?_, fun s hr => ?_, fun s hr => ?_⟩
  · have hstep : step s = thenAdvance (exec i s) := by simp [step, hi]
    exact ⟨hstep, fun t ht => by rw [hstep, ht]; rfl⟩
  · simp [State.fetchWord, hr]
  · simp [State.fetchWord, hr]

/-- Parameters, host state, inputs and tick number are as before: what no operation writes (log 12). -/
def SameOutside (t s : State) : Prop :=
  t.params = s.params ∧ t.host = s.host ∧ t.inputs = s.inputs ∧ t.tick = s.tick

/-- An outcome for `s` that is a next state with the same outside. -/
def Completes (o : Host.Outcome State Fault Refusal) (s : State) : Prop :=
  ∃ t, o = .next t ∧ SameOutside t s

theorem completes_next {s t : State} (h : SameOutside t s) : Completes (.next t) s :=
  ⟨t, rfl, h⟩

theorem sameOutside_refl (s : State) : SameOutside s s :=
  ⟨rfl, rfl, rfl, rfl⟩

theorem SameOutside.trans {s t u : State} (h : SameOutside u t) (h' : SameOutside t s) : SameOutside u s := by
  obtain ⟨hp, hh, hi, ht⟩ := h
  obtain ⟨hp', hh', hi', ht'⟩ := h'
  exact ⟨hp.trans hp', hh.trans hh', hi.trans hi', ht.trans ht'⟩

theorem sameOutside_clear (s : State) (p : Phase) : SameOutside (s.clear p) s :=
  ⟨rfl, rfl, rfl, rfl⟩

theorem sameOutside_timed (n : Nat) (next : Phase) (s : State) : SameOutside (timed n next s) s := by
  obtain ⟨-, e⟩ | ⟨-, e⟩ := timed_cases n next s <;> rw [e] <;> exact ⟨rfl, rfl, rfl, rfl⟩

theorem sameOutside_nextPosition (s : State) : SameOutside (nextPosition s) s := by
  unfold nextPosition
  split <;> exact ⟨rfl, rfl, rfl, rfl⟩

theorem sameOutside_measureTick (l : Level) (s : State) : SameOutside (measureTick l s).2 s := by
  obtain ⟨-, e⟩ | ⟨-, -, e⟩ | ⟨-, -, e⟩ := measure_cases l s <;> rw [e] <;> exact ⟨rfl, rfl, rfl, rfl⟩

theorem completes_idle (s : State) : Completes (execIdle s) s := by
  refine completes_next ?_
  split
  · exact sameOutside_clear s .settle
  · exact sameOutside_refl s

theorem completes_reqHigh (s : State) : Completes (execReqHigh s) s := by
  refine completes_next ?_
  split <;> exact sameOutside_timed _ _ s

theorem completes_checksum (s : State) : Completes (execChecksum s) s := by
  refine completes_next ?_
  split <;> exact ⟨rfl, rfl, rfl, rfl⟩

/-- The operation of every phase completes, in whatever phase it is run. -/
theorem completes_phase (p : Phase) (s : State) : Completes (exec p.instr s) s := by
  cases p with
  | idle => exact completes_idle s
  | settle => exact completes_next (sameOutside_timed _ _ s)
  | reqLow => exact completes_next (sameOutside_timed _ _ s)
  | reqHigh => exact completes_reqHigh s
  | ackLow | bitLow =>
    have h := sameOutside_measureTick .low s
    refine completes_next ?_
    rcases e : measureTick .low s with ⟨_ | _ | _, u⟩ <;> rw [e] at h <;> exact h
  | ackHigh =>
    have h := sameOutside_measureTick .high s
    refine completes_next ?_
    rcases e : measureTick .high s with ⟨_ | _ | _, u⟩ <;> rw [e] at h <;> exact h
  | bitHigh =>
    have h := sameOutside_measureTick .high s
    refine completes_next ?_
    rcases e : measureTick .high s with ⟨_ | _ | _, u⟩ <;> rw [e] at h
    · exact h
    · exact (sameOutside_nextPosition _).trans h
    · exact h
  | checksum => exact completes_checksum s

/-- A tick that takes no command is the phase's operation, in every phase but IDLE. -/
theorem uncommanded_of_busy {s : State} (h : s.phase ≠ .idle) : uncommanded s = exec s.phase.instr s := by
  cases hp : s.phase <;> simp_all [uncommanded, Phase.instr, exec]

theorem completes_uncommanded (s : State) : Completes (uncommanded s) s := by
  by_cases hp : s.phase = .idle
  · simpa [uncommanded, hp] using completes_next (sameOutside_refl s)
  · exact uncommanded_of_busy hp ▸ completes_phase s.phase s

theorem completes_exec (i : Instr) (s : State) : Completes (exec i s) s := by
  cases i with
  | reset => exact completes_next (sameOutside_clear s .idle)
  | start =>
    show Completes (execStart s) s
    unfold execStart
    split
    · exact completes_next (sameOutside_clear s .settle)
    · exact completes_uncommanded s
  | nop => exact completes_uncommanded s
  | measure _ l => exact completes_next (sameOutside_measureTick l s)
  | idle => exact completes_phase .idle s
  | settle => exact completes_phase .settle s
  | reqLow => exact completes_phase .reqLow s
  | reqHigh => exact completes_phase .reqHigh s
  | ackLow => exact completes_phase .ackLow s
  | ackHigh => exact completes_phase .ackHigh s
  | bitLow => exact completes_phase .bitLow s
  | bitHigh => exact completes_phase .bitHigh s
  | checksum => exact completes_phase .checksum s

/-- Settles O5: the step decodes and never stops, and each operation completes. -/
theorem everyTickTakesOneStep : Obligations.EveryTickTakesOneStep := by
  refine ⟨fun s => ?_, completes_exec⟩
  obtain ⟨t, ht⟩ := step_total s
  exact ⟨t, ht, step_outside ht⟩

/-! The outputs -/

theorem crit_iff_mem (p : Phase) :
    p.crit = true ↔ p ∈ [.reqLow, .reqHigh, .ackLow, .ackHigh, .bitLow, .bitHigh] := by
  cases p <;> decide

theorem lineOe_iff (p : Phase) : p.lineOe = true ↔ p = .reqLow ∨ p = .reqHigh := by
  cases p <;> decide

theorem lineO_eq_low_iff (p : Phase) : p.lineO = .low ↔ p = .reqLow := by
  cases p <;> decide

/-- Settles O28: the ports of the phase by their tables, the result ports by what they show. -/
theorem outputsFollowPhaseAndResult : Obligations.OutputsFollowPhaseAndResult := by
  intro s
  have code {st : Status} (h : s.status = st) : s.outputs.status = st.code := congrArg Status.code h
  exact ⟨decide_eq_true_iff, decide_eq_true_iff, crit_iff_mem s.phase, lineOe_iff s.phase, lineO_eq_low_iff s.phase,
    rfl, rfl, code, code, code, code, code, code⟩

end Sys2Proof.Machine
end

section
/-!
The frame's order of arrival (20_memory.md R44 to R46), the line as an input (R41, R42), and when the result appears
(R49, R51 (b)).
-/

namespace Sys2Proof.Machine

/-! The frame -/

theorem arrivalBits_getElem? (f : Frame) {i : Nat} (hi : i < 40) : (arrivalBits f)[i]? = some (f.getLsbD (39 - i)) := by
  simp [arrivalBits, hi]

/-- The place of an arrival position in its byte. -/
theorem frameByte_arrival (f : Frame) {i : Nat} {k : Fin 5} (hk : i / 8 = k.val) :
    (frameByte f k).getLsbD (7 - i % 8) = f.getLsbD (39 - i) := by
  rw [frameByte_getLsbD f k _ (by omega), show 32 - 8 * k.val + (7 - i % 8) = 39 - i by omega]

/-- A frame is its five bytes put together: each of its bits is a bit of the byte it falls in. -/
theorem frame_eq_bytes (f : Frame) :
    f = frameByte f 0 ++ frameByte f 1 ++ frameByte f 2 ++ frameByte f 3 ++ frameByte f 4 := by
  refine BitVec.eq_of_getLsbD_eq fun i hi => ?_
  rw [getLsbD_bytes]
  split_ifs with h4 h3 h2 h1
  all_goals
    rw [frameByte_getLsbD f _ _ (by omega)]
    congr 1
    omega

/-- Settles O27: both readings of a position are the frame's bit `39 - i`. -/
theorem framePacksArrivalOrder : Obligations.FramePacksArrivalOrder := by
  refine ⟨fun f i k hi hk => ?_, frame_eq_bytes⟩
  rw [frameByte_arrival f hk]
  exact ⟨arrivalBits_getElem? f hi, rfl⟩

/-! The line -/

/-- After the clock's advance nothing of this tick's input is left in the state. -/
theorem advance_withInput (s : State) (x : Inputs) : (s.withInput x).advance = s.advance := rfl

theorem timed_withInput (n : Nat) (next : Phase) (s : State) (x : Inputs) :
    timed n next (s.withInput x) = (timed n next s).withInput x := by
  simp only [timed, apply_ite (State.withInput · x)]
  rfl

/-- The operation of a busy phase that does not measure reads no input. -/
theorem exec_withInput {p : Phase} (hi : p ≠ .idle) (hm : p.measures = false) (s : State) (x : Inputs) :
    thenAdvance (exec p.instr (s.withInput x)) = thenAdvance (exec p.instr s) := by
  cases p with
  | idle => exact absurd rfl hi
  | ackLow | ackHigh | bitLow | bitHigh => cases hm
  | settle | reqLow =>
    simp only [Phase.instr, exec, execSettle, execReqLow, thenAdvance, timed_withInput, advance_withInput,
      State.withInput_params]
  | reqHigh =>
    simp only [Phase.instr, exec, execReqHigh, thenAdvance, timed_withInput, State.withInput_timer,
      State.withInput_params]
    split <;> rfl
  | checksum =>
    simp only [Phase.instr, exec, execChecksum, thenAdvance, apply_ite State.advance]
    rfl

/-- IDLE reads `start` and no more of the input. -/
theorem exec_idle_withInput (s : State) (x : Inputs) :
    thenAdvance (exec .idle (s.withInput x)) = .next (if x.start then acceptStart s else s).advance := by
  simp only [exec, execIdle, thenAdvance, apply_ite State.advance]
  rfl

/-- Where the phase does not measure, inputs with the same command ports give the same step. -/
theorem step_withInput_congr {s : State} {x y : Inputs} (hm : s.phase.measures = false) (hr : x.rst = y.rst)
    (hs : x.start = y.start) : step (s.withInput x) = step (s.withInput y) := by
  cases hy : y.rst with
  | true =>
    rw [step_reset (s := s.withInput x) (hr.trans hy), step_reset (s := s.withInput y) hy]
    rfl
  | false =>
    rw [step_phase (s := s.withInput x) (hr.trans hy), step_phase (s := s.withInput y) hy]
    by_cases hi : s.phase = .idle
    · rw [State.withInput_phase, State.withInput_phase, hi, Phase.instr, exec_idle_withInput, exec_idle_withInput, hs]
    · exact (exec_withInput hi hm s x).trans (exec_withInput hi hm s y).symm

theorem not_measures_of_lineOe {p : Phase} (h : p.lineOe = true) : p.measures = false := by
  obtain rfl | rfl := (lineOe_iff p).mp h <;> rfl

/-- Settles O32: a phase that does not measure runs an operation that takes no sample. -/
theorem lineIsReadOnlyInMeasuringPhases : Obligations.LineIsReadOnlyInMeasuringPhases :=
  ⟨fun _ _ _ _ _ hm => step_withInput_congr hm rfl rfl, fun _ => not_measures_of_lineOe⟩

/-! The result -/

theorem busy_successor {p : Phase} {P : Params} {N : Nat} (hN : p.timedLength P = some N) (k : Fin 40) :
    (p.successor k).busy = true := by
  obtain rfl | rfl | rfl := phase_of_timedLength hN <;> rfl

/-- A count never ends the read. -/
theorem onCount_busy {s : State} (hm : s.phase.measures = true) : (onCount s).phase.busy = true := by
  obtain ⟨-, e⟩ | ⟨-, e⟩ | ⟨-, e⟩ | ⟨-, -, e⟩ | ⟨-, -, e⟩ := onCount_cases hm <;> rw [e] <;> rfl

/-- Without a reset a read ends only in a tick that reports: a timeout or CHECKSUM. -/
theorem status_ne_none_of_busy_falls {s u : State} (hu : Tick s u) (hr : s.rst = false) (h1 : s.phase.busy = true)
    (h0 : u.phase.busy = false) : u.status ≠ .none := by
  cases hu with
  | reset hr' => simp [hr] at hr'
  | accept => cases h0
  | rest | timedMore | matched => simp [h1] at h0
  | timedLast _ hN => simp [busy_successor hN] at h0
  | count _ hm => simp [onCount_busy hm] at h0
  | timeout | valid | mismatch => simp

theorem step_rest {s : State} (hr : s.rst = false) (hp : s.phase = .idle) (hs : s.start = false) :
    step s = .next s.advance := by
  simp [step_idle hr hp, hs]

/-- Settles O34: a busy state shows no result by the invariant, and a read that ends has reported. -/
theorem resultAppearsExactlyWhenBusyFalls : Obligations.ResultAppearsExactlyWhenBusyFalls := by
  intro s t hinv h hr
  obtain ⟨busy, -⟩ := stepKeepsTheResultInvariant s t hinv h
  refine ⟨fun h1 => ⟨⟨fun h0 => ?_, fun hst => ?_⟩, busy⟩, fun h0 hs => ?_⟩
  · obtain ⟨u, hu, rfl⟩ := step_tick h
    exact status_ne_none_of_busy_falls (u := u) hu hr h1 h0
  · by_contra hb
    obtain ⟨hnone, -⟩ := busy ((Bool.not_eq_false _).mp hb)
    exact hst hnone
  · have hp : s.phase = .idle := by simpa [State.outputs, Phase.busy] using h0
    cases (step_rest hr hp hs).symm.trans h
    exact ⟨rfl, rfl, rfl, rfl⟩

end Sys2Proof.Machine
end

section
/-!
The encoding (30_encoding.md R68 to R70): legal words are the operations' encodings and every other word is refused. A
tick read by its command word (R69, 10_state.md R30), and the IDLE operation.
-/

namespace Sys2Proof.Machine

/-! Words -/

/-- Every operand value is legal (30_encoding.md R68, R69). -/
@[simp] theorem instr_wf (i : Instr) : i.wf = true := by
  cases i <;> rfl

/-- The encoding's statement, of every operation. -/
theorem encoding_statement (i : Instr) : Laws.Encoding.Statement i := by
  cases i with
  | reset b => exact Laws.Encoding.reset b
  | start => exact Laws.Encoding.start
  | nop => exact Laws.Encoding.nop
  | idle => exact Laws.Encoding.idle
  | settle => exact Laws.Encoding.settle
  | reqLow => exact Laws.Encoding.reqLow
  | reqHigh => exact Laws.Encoding.reqHigh
  | measure k l => exact Laws.Encoding.measure k l
  | ackLow => exact Laws.Encoding.ackLow
  | ackHigh => exact Laws.Encoding.ackHigh
  | bitLow => exact Laws.Encoding.bitLow
  | bitHigh => exact Laws.Encoding.bitHigh
  | checksum => exact Laws.Encoding.checksum

@[simp] theorem decode_encode (i : Instr) : decode (encode i) = .ok i :=
  (encoding_statement i (instr_wf i)).2

@[simp] theorem encode_wf (i : Instr) : (encode i).wf = true :=
  (encoding_statement i (instr_wf i)).1

theorem encode_phase_instr (p : Phase) : encode p.instr = .phase p.code := by
  cases p <;> rfl

theorem exists_encode_eq_cmd (w : BitVec 2) : ∃ i, encode i = .cmd w := by
  have hw : w = 0#2 ∨ w = 1#2 ∨ w = 2#2 ∨ w = 3#2 := by decide +revert
  obtain rfl | rfl | rfl | rfl := hw
  · exact ⟨.nop, rfl⟩
  · exact ⟨.start, rfl⟩
  · exact ⟨.reset false, rfl⟩
  · exact ⟨.reset true, rfl⟩

/-- The codes 0 to 8 are the phases' codes. -/
theorem exists_phase_code {w : BitVec 4} (h : w.toNat ≤ 8) : ∃ p : Phase, p.code = w := by
  have hw : w ∈ [Phase.idle, .settle, .reqLow, .reqHigh, .ackLow, .ackHigh, .bitLow, .bitHigh, .checksum].map
      Phase.code := by decide +revert
  obtain ⟨p, -, hp⟩ := List.mem_map.mp hw
  exact ⟨p, hp⟩

/-- The codes 4 to 7 are the pattern `01kl` of their two low bits. -/
theorem subopWord_of_bits {w : BitVec 4} (h : 4 ≤ w.toNat ∧ w.toNat ≤ 7) :
    subopWord (.ofBit (w.getLsbD 1)) (.ofBit (w.getLsbD 0)) = .subop w := by
  decide +revert

/-- A legal word is some operation's word. -/
theorem exists_encode_of_wf {w : CodeWord} (h : w.wf = true) : ∃ i, encode i = w := by
  cases w with
  | cmd w => exact exists_encode_eq_cmd w
  | phase w =>
    obtain ⟨p, rfl⟩ := exists_phase_code (of_decide_eq_true h)
    exact ⟨p.instr, encode_phase_instr p⟩
  | subop w => exact ⟨.measure _ _, subopWord_of_bits (of_decide_eq_true h)⟩

theorem decodePhase_reserved {w : BitVec 4} (h : ¬ w.toNat ≤ 8) : decodePhase w = .error (.reservedPhase w) := by
  decide +revert

theorem decodeSubop_outside_pattern {w : BitVec 4} (h : ¬(4 ≤ w.toNat ∧ w.toNat ≤ 7)) :
    decodeSubop w = .error (.notMeasuring w) := by
  decide +revert

/-- A word no operation has is refused (30_encoding.md R70). -/
theorem exists_decode_error {w : CodeWord} (h : w.wf = false) : ∃ e, decode w = .error e := by
  cases w with
  | cmd => cases h
  | phase w => exact ⟨_, decodePhase_reserved (of_decide_eq_false h)⟩
  | subop w => exact ⟨_, decodeSubop_outside_pattern (of_decide_eq_false h)⟩

/-- An operation's word, or refused: no third kind of word. -/
theorem word_cases (w : CodeWord) : (∃ i, encode i = w) ∨ (w.wf = false ∧ ∃ e, decode w = .error e) := by
  cases h : w.wf with
  | true => exact .inl (exists_encode_of_wf h)
  | false => exact .inr ⟨rfl, exists_decode_error h⟩

/-- Settles O2: on both sides the word is an operation's encoding or a refused one. -/
theorem decodeAndEncodeAgree : Obligations.DecodeAndEncodeAgree := by
  refine ⟨fun w i => ⟨fun h => ⟨instr_wf i, ?_⟩, ?_⟩, fun w => ?_⟩
  · obtain ⟨j, rfl⟩ | ⟨-, e, he⟩ := word_cases w
    · rw [decode_encode, Except.ok.injEq] at h
      rw [h]
    · rw [he] at h
      cases h
  · rintro ⟨-, rfl⟩
    exact decode_encode i
  · obtain ⟨j, rfl⟩ | ⟨hw, he⟩ := word_cases w
    · simp
    · exact iff_of_true he hw

/-- Settles O1: each word is its operation's encoding, written out. -/
theorem writtenOutWordsDecode : Obligations.WrittenOutWordsDecode :=
  ⟨decode_encode (.reset false), decode_encode (.reset true), decode_encode .start, decode_encode .nop,
    decode_encode .idle, decode_encode .settle, decode_encode .reqLow, decode_encode .reqHigh, decode_encode .ackLow,
    decode_encode .ackHigh, decode_encode .bitLow, decode_encode .bitHigh, decode_encode .checksum,
    decode_encode (.measure .acknowledge .low), decode_encode (.measure .bitSymbol .high)⟩

/-! Commands and the idle phase -/

theorem exec_idle_started {s : State} (h : s.start = true) : exec .idle s = .next (acceptStart s) := by
  simp [exec, execIdle, h]

theorem exec_idle_unstarted {s : State} (h : s.start = false) : exec .idle s = .next s := by
  simp [exec, execIdle, h]

/-- Settles O10: both values of `start`. -/
theorem idleWaitsForStart : Obligations.IdleWaitsForStart :=
  fun _ => ⟨exec_idle_started, exec_idle_unstarted⟩

theorem exec_start_idle {s : State} (h : s.phase = .idle) : exec .start s = .next (acceptStart s) :=
  if_pos h

theorem exec_nop_idle {s : State} (h : s.phase = .idle) : exec .nop s = .next s := by
  simp [exec, execNop, uncommanded, h]

theorem exec_start_busy {s : State} (h : s.phase ≠ .idle) : exec .start s = exec s.phase.instr s :=
  (if_neg h).trans (uncommanded_of_busy h)

theorem exec_nop_busy {s : State} (h : s.phase ≠ .idle) : exec .nop s = exec s.phase.instr s :=
  uncommanded_of_busy h

/-- With `start` raised START is the phase's operation, in IDLE too. -/
theorem exec_start_eq_phase {s : State} (h : s.start = true) : exec .start s = exec s.phase.instr s := by
  by_cases hp : s.phase = .idle
  · rw [exec_start_idle hp, hp, Phase.instr, exec_idle_started h]
  · exact exec_start_busy hp

/-- Without `start` NOP is the phase's operation, in IDLE too. -/
theorem exec_nop_eq_phase {s : State} (h : s.start = false) : exec .nop s = exec s.phase.instr s := by
  by_cases hp : s.phase = .idle
  · rw [exec_nop_idle hp, hp, Phase.instr, exec_idle_unstarted h]
  · exact exec_nop_busy hp

theorem step_of_commandWord {s : State} {i : Instr} (h : decode s.commandWord = .ok i) :
    step s = thenAdvance (exec i s) := by
  rw [State.commandWord, decode_cmdWord, Except.ok.injEq] at h
  subst h
  cases hr : s.rst with
  | true => exact step_reset hr
  | false =>
    rw [step_phase hr]
    cases hs : s.start with
    | true => exact congrArg thenAdvance (exec_start_eq_phase hs).symm
    | false => exact congrArg thenAdvance (exec_nop_eq_phase hs).symm

/-- Settles O4: by the two command ports. -/
theorem commandWordSelectsTheSameTick : Obligations.CommandWordSelectsTheSameTick :=
  ⟨fun _ _ => step_of_commandWord, fun _ hp => ⟨exec_start_busy hp, exec_nop_busy hp⟩⟩

end Sys2Proof.Machine
end

section
/-!
The Pulse Timer (40_pulse_timer.md): MEASURE as an operation (R91), and whole measurements, with a count (R92, R94) and
with a timeout (R93).
-/

namespace Sys2Proof.Machine

/-! One tick -/

/-- MEASURE as an operation leaves what the measurement tick leaves; its result goes nowhere (log 11). -/
theorem exec_measure_of_measureTick {l : Level} {s t : State} {r : Option PulseMeasurement}
    (h : measureTick l s = (r, t)) (k : PulseKind) : exec (.measure k l) s = .next t := by
  rw [exec, execMeasure, h]

/-- Settles O16: the three things a measurement tick can do. -/
theorem measureTickWritesOnlyTheCount : Obligations.MeasureTickWritesOnlyTheCount :=
  ⟨fun _ k _ hl hc => ⟨measure_counts hl hc, exec_measure_of_measureTick (measure_counts hl hc) k⟩,
    fun _ k _ hl hc => ⟨measure_timeout hl hc, exec_measure_of_measureTick (measure_timeout hl hc) k⟩,
    fun _ k _ hl => ⟨measure_ends hl, exec_measure_of_measureTick (measure_ends hl) k⟩⟩

/-! A whole measurement -/

/-- The tick of a count uses up its sample and leads to the phase's successor with `cnt` 0. -/
theorem onCount_advance {s : State} (hm : s.phase.measures = true) :
    (onCount s).advance.phase = s.phase.successor s.bitIdx ∧ (onCount s).advance.cnt = 0
    ∧ (onCount s).advance.inputs = s.inputs.tail := by
  obtain ⟨hp, e⟩ | ⟨hp, e⟩ | ⟨hp, e⟩ | ⟨hp, hi, e⟩ | ⟨hp, hi, e⟩ := onCount_cases hm <;> rw [e, hp]
  · exact ⟨rfl, rfl, rfl⟩
  · exact ⟨rfl, rfl, rfl⟩
  · exact ⟨rfl, rfl, rfl⟩
  · exact ⟨(if_neg hi).symm, rfl, rfl⟩
  · exact ⟨(if_pos hi).symm, rfl, rfl⟩

theorem measures_of_timeoutFailure {p : Phase} {f : Failure} (h : p.timeoutFailure = some f) : p.measures = true := by
  cases p <;> simp_all [Phase.measures, Phase.timeoutFailure]

/-- After `k` of `n` listed ticks the input due is one of those `n`. -/
theorem input_mem_take {s t : State} {k n : Nat} (ht : t.inputs = s.inputs.drop k) (hk : k < n)
    (hn : n ≤ s.inputs.length) : t.input ∈ s.inputs.take n := by
  have hlt : k < s.inputs.length := by omega
  rw [input_drop ht (List.getElem?_eq_getElem hlt)]
  exact List.mem_take_iff_getElem.mpr ⟨k, by omega, rfl⟩

/-- The block `k` ticks into a measurement begun at `s`, every sample so far at the expected level. -/
def State.matched (s : State) (k : Nat) : State :=
  { s with cnt := k, inputs := s.inputs.drop k, tick := s.tick + k }

theorem matched_zero {s : State} (hc : s.cnt = 0) : s.matched 0 = s := by
  simp only [State.matched, List.drop_zero, Nat.add_zero]
  rw [← hc]

/-- `run_matching` from `cnt` 0, at a budget of 0 too, where the only run is that of no ticks. -/
theorem run_matched {s : State} (hm : s.phase.measures = true) (hc : s.cnt = 0) {k : Nat}
    (hk : k ≤ s.params.cycleBudget - 1) (hr : s.NoReset k)
    (hl : ∀ y ∈ s.inputs.take k, y.line = s.phase.expectedLevel) : runTicks k s = .next (s.matched k) := by
  cases k with
  | zero => rw [runTicks_zero, matched_zero hc]
  | succ k => simpa [State.matched, hc] using run_matching hm (k + 1) (by omega) hr hl

/-- Settles O17: the matching samples are counted, the sample after them ends the measurement. -/
theorem measurementCountsMatchingSamples : Obligations.MeasurementCountsMatchingSamples := by
  rintro s _ pulse rest x hm hc hn hin rfl hpulse hxr hxl
  have taken (k : Nat) (hk : k ≤ pulse.length) : s.inputs.take k ⊆ pulse := by
    rw [hin, List.take_append_of_le_length hk]
    exact List.take_subset k pulse
  refine ⟨fun k hk => ?_, measure_ends hxl, ?_⟩
  · have hlen : k ≤ s.inputs.length := by rw [hin, List.length_append]; omega
    exact run_matched hm hc (by omega) ⟨hlen, fun y hy => (hpulse y (taken k hk hy)).1⟩
      fun y hy => (hpulse y (taken k hk hy)).2
  · exact ⟨_, run_count hm hc hn hin hpulse hxr hxl, onCount_advance hm⟩

/-- Settles O18: `cnt` is at the budget less one when the budget's last sample is due, and that sample matches too. -/
theorem measurementTimesOutAtTheBudget : Obligations.MeasurementTimesOutAtTheBudget := by
  rintro s f ⟨-, hB, -, -, -⟩ hf hc hr hl
  have run (k : Nat) (hk : k < s.params.cycleBudget) : runTicks k s = .next (s.matched k) :=
    run_matched (measures_of_timeoutFailure hf) hc (by omega) (noReset_of_le hr hk.le)
      fun y hy => hl y (List.take_subset_take_left _ hk.le hy)
  have due (k : Nat) (hk : k < s.params.cycleBudget) : (s.matched k).input ∈ s.inputs.take s.params.cycleBudget :=
    input_mem_take rfl hk hr.1
  refine ⟨run, fun k hk => ?_, ?_⟩
  · have hlast : measureTick s.phase.expectedLevel (s.matched k) = (some .timeout, s.matched k) :=
      measure_timeout (hl _ (due k (by omega))) (show k = s.params.cycleBudget - 1 by omega)
    exact congrArg Prod.fst hlast
  · obtain ⟨k, hk⟩ : ∃ k, s.params.cycleBudget = k + 1 := ⟨s.params.cycleBudget - 1, by omega⟩
    have hmem := due k (by omega)
    have hlast : step (s.matched k) = .next (raiseFailure f (s.matched k)).advance :=
      step_measure_timeout (hr.2 _ hmem) hf (hl _ hmem) (show k = s.params.cycleBudget - 1 by omega)
    rw [hk, runTicks_snoc (run k (by omega)) hlast]
    simp [State.matched, State.advance, raiseFailure, Nat.add_assoc]

end Sys2Proof.Machine
end

section
/-!
The Sequencer (41_sequencer.md): commands and the idle phase (R110, R111), the request (R112 to R115, R119, R123), the
acknowledge (R116, R117), and the control table (R118).
-/

namespace Sys2Proof.Machine

/-! Commands and the idle phase -/

/-- Settles O8: the operation and the step are both `acceptStart`. -/
theorem startInIdleClearsAndBegins : Obligations.StartInIdleClearsAndBegins := by
  intro s hp
  refine ⟨exec_start_idle hp, fun hr hs => ?_, ?_, ?_, fun t ht => ?_⟩
  · rw [step_idle hr hp, if_pos hs]
    rfl
  · simp [State.outputs, Phase.busy, hp]
  · simp [State.outputs, Phase.ready, hp]
  · cases (exec_start_idle hp).symm.trans ht
    exact ⟨rfl, rfl, rfl⟩

/-- States that differ only in ports of this tick that it does not read take the same step. -/
theorem step_eq_of_sameBlock {s t : State} (hb : SameBlock s t) (hp : s.params = t.params) (hh : s.host = t.host)
    (hi : s.inputs.tail = t.inputs.tail) (ht : s.tick = t.tick) (hr : s.rst = t.rst)
    (hs : s.phase = .idle → s.start = t.start) (hl : s.phase.measures = true → s.lineSample = t.lineSample) :
    step s = step t := by
  obtain ⟨u, v, hu, hv, huv⟩ := step_sameBlock hb hp hr hs hl
  obtain ⟨up, uh, ui, ut⟩ := step_outside hu
  obtain ⟨vp, vh, vi, vt⟩ := step_outside hv
  have huv : u = v := state_eq huv (by rw [up, vp, hp]) (by rw [uh, vh, hh]) (by rw [ui, vi, hi]) (by rw [ut, vt, ht])
  rw [hu, hv, huv]

/-- While busy the port `start` is not read. -/
theorem step_withInput_of_busy {s : State} {x y : Inputs} (h : s.phase ≠ .idle) (hr : x.rst = y.rst)
    (hl : x.line = y.line) : step (s.withInput x) = step (s.withInput y) :=
  step_eq_of_sameBlock ⟨rfl, rfl, rfl, rfl, rfl, rfl, rfl, rfl, rfl⟩ rfl rfl rfl rfl hr (fun hp => absurd hp h)
    fun _ => hl

theorem lineOe_of_idle {s : State} (h : s.phase = .idle) : s.outputs.lineOe = false :=
  congrArg Phase.lineOe h

/-- Settles O9: the idle clauses by the operations, the busy one by the ports a busy phase reads. -/
theorem nopRestsAndStartWhileBusyIsIgnored : Obligations.NopRestsAndStartWhileBusyIsIgnored :=
  ⟨fun _ => exec_nop_idle, fun _ _ => exec_idle_unstarted, fun _ hp hr hs => step_rest hr hp hs,
    fun _ => lineOe_of_idle, fun _ _ _ _ hp => step_withInput_of_busy hp rfl rfl⟩

/-! The request -/

/-- Settles O11: a timed tick, in whatever state it is run. -/
theorem settleTickCountsThenLeaves : Obligations.SettleTickCountsThenLeaves :=
  ⟨fun s h => congrArg Host.Outcome.next (timed_more s.params.tSettle_le h),
    fun _ h => congrArg Host.Outcome.next (timed_last h), rfl, rfl⟩

/-- Settles O12: as for SETTLE. -/
theorem reqLowTickCountsThenLeaves : Obligations.ReqLowTickCountsThenLeaves :=
  ⟨fun s h => congrArg Host.Outcome.next (timed_more s.params.tReqLow_le h),
    fun _ h => congrArg Host.Outcome.next (timed_last h), rfl, rfl, rfl⟩

theorem exec_reqHigh_more {s : State} (h : s.timer + 1 < s.params.tReqHigh) :
    exec .reqHigh s = .next { s with timer := s.timer + 1 } := by
  have hne : s.timer ≠ s.params.tReqHigh - 1 := by omega
  rw [exec, execReqHigh, if_neg hne, timed_more s.params.tReqHigh_le h]

theorem exec_reqHigh_last {s : State} (h : s.timer = s.params.tReqHigh - 1) :
    exec .reqHigh s = .next { s with timer := 0, cnt := 0, phase := .ackLow } := by
  rw [exec, execReqHigh, if_pos h, timed_last h]

/-- Settles O13: a timed tick, with `cnt` cleared on leaving. -/
theorem reqHighTickCountsThenLeaves : Obligations.ReqHighTickCountsThenLeaves :=
  ⟨fun _ => exec_reqHigh_more, fun _ => exec_reqHigh_last, rfl, rfl, rfl, rfl⟩

/-- Settles O14: the runs of the phase's first `k` ticks and of all `N`. -/
theorem timedPhaseLastsItsLength : Obligations.TimedPhaseLastsItsLength := by
  refine ⟨fun s N hw hN ht hr => ⟨fun k hk => ?_, ?_⟩, fun s t hp h => ?_⟩
  · exact ⟨_, run_timed hN k (by omega) (noReset_of_le hr hk.le), rfl, by simp [ht], rfl⟩
  · exact ⟨_, run_timed_whole (timedLength_pos hw hN) hN ht hr, rfl, rfl⟩
  · cases (exec_start_idle hp).symm.trans h
    rfl

/-- Settles O15: `run_request` from the first tick on; before it the block is in IDLE. -/
theorem firstSampleIsAtTListen : Obligations.FirstSampleIsAtTListen := by
  intro s hw ha hr
  have one_le : 1 ≤ s.params.tListen := by simp only [Params.tListen]; omega
  refine ⟨rfl, fun k hk => ?_, ?_⟩
  · obtain rfl | hpos := Nat.eq_zero_or_pos k
    · exact ⟨s, rfl, by rw [ha.1]; rfl⟩
    · obtain ⟨p, n, run, before, -⟩ := run_request hw ha k hpos hk.le (noReset_of_le hr hk.le)
      exact ⟨_, run, (before hk).1⟩
  · obtain ⟨p, n, run, -, atListen⟩ := run_request hw ha _ one_le le_rfl hr
    obtain ⟨rfl, rfl⟩ := atListen rfl
    exact run

/-! The acknowledge -/

/-- The operation of a measuring phase on a sample at the expected level with budget left. -/
theorem exec_measuring_counts {p : Phase} {s : State} (hm : p.measures = true) (hl : s.lineSample = p.expectedLevel)
    (hc : s.cnt + 1 < s.params.cycleBudget) : exec p.instr s = .next { s with cnt := s.cnt + 1 } := by
  obtain rfl | rfl | rfl | rfl := phase_of_measures hm
  all_goals
    simp only [expectedLevel_ackLow, expectedLevel_ackHigh, expectedLevel_bitLow, expectedLevel_bitHigh] at hl
    simp only [Phase.instr, exec, execAckLow, execAckHigh, execBitLow, execBitHigh, measure_counts hl hc]

/-- The operation of a measuring phase on the budget's last sample, still at the expected level. -/
theorem exec_measuring_timeout {p : Phase} {f : Failure} {s : State} (hf : p.timeoutFailure = some f)
    (hl : s.lineSample = p.expectedLevel) (hc : s.cnt = s.params.cycleBudget - 1) :
    exec p.instr s = .next (raiseFailure f s) := by
  obtain rfl | rfl | rfl | rfl := phase_of_measures (measures_of_timeoutFailure hf) <;> cases hf
  all_goals
    simp only [expectedLevel_ackLow, expectedLevel_ackHigh, expectedLevel_bitLow, expectedLevel_bitHigh] at hl
    simp only [Phase.instr, exec, execAckLow, execAckHigh, execBitLow, execBitHigh, measure_timeout hl hc]

theorem exec_ackLow_ends {s : State} (h : s.lineSample = .high) :
    exec .ackLow s = .next { s with cnt := 0, phase := .ackHigh } := by
  have hne : s.lineSample ≠ .low := by simp [h]
  rw [exec, execAckLow, measure_ends hne]

theorem exec_ackHigh_ends {s : State} (h : s.lineSample = .low) :
    exec .ackHigh s = .next { s with cnt := 0, phase := .bitLow, bitIdx := 0 } := by
  have hne : s.lineSample ≠ .high := by simp [h]
  rw [exec, execAckHigh, measure_ends hne]

/-- Settles O19: the three things a measurement tick at the low level can do. -/
theorem ackLowTick : Obligations.AckLowTick :=
  ⟨fun _ => exec_measuring_counts (p := .ackLow) rfl, fun _ => exec_measuring_timeout (p := .ackLow) rfl,
    fun _ => exec_ackLow_ends⟩

/-- Settles O20: the three things a measurement tick at the high level can do. -/
theorem ackHighTick : Obligations.AckHighTick :=
  ⟨fun _ => exec_measuring_counts (p := .ackHigh) rfl, fun _ => exec_measuring_timeout (p := .ackHigh) rfl,
    fun _ => exec_ackHigh_ends⟩

/-! The control table -/

theorem controlTable_idle {s : State} (hp : s.phase = .idle) :
    controlTable s = if s.start then .settle else .idle := by
  simp only [controlTable, hp]

theorem controlTable_checksum {s : State} (hp : s.phase = .checksum) : controlTable s = .idle := by
  simp only [controlTable, hp]

/-- The rows of the timed phases. -/
theorem controlTable_timed {s : State} {N : Nat} (hN : s.phase.timedLength s.params = some N) :
    controlTable s = if s.timer = N - 1 then s.phase.successor s.bitIdx else s.phase := by
  obtain hp | hp | hp := phase_of_timedLength hN <;>
    simp only [hp, Phase.timedLength, Option.some.injEq] at hN <;> subst hN <;>
    simp only [controlTable, hp, Phase.successor]

/-- The rows of the measuring phases at the expected level. -/
theorem controlTable_expected {s : State} (hm : s.phase.measures = true) (hl : s.lineSample = s.phase.expectedLevel) :
    controlTable s = if s.cnt = s.params.cycleBudget - 1 then .idle else s.phase := by
  obtain hp | hp | hp | hp := phase_of_measures hm <;> rw [hp] at hl <;> simp [controlTable, hp, hl]

/-- The rows of the measuring phases at the other level. -/
theorem controlTable_other {s : State} (hm : s.phase.measures = true) (hl : s.lineSample ≠ s.phase.expectedLevel) :
    controlTable s = s.phase.successor s.bitIdx := by
  have other {l : Level} (h : l ≠ s.phase.expectedLevel) : s.lineSample = l := Level.eq_other hl h
  obtain hp | hp | hp | hp := phase_of_measures hm
  · simp [controlTable, hp, Phase.successor, other (l := .high) (by simp [hp])]
  · simp [controlTable, hp, Phase.successor, other (l := .low) (by simp [hp])]
  · simp [controlTable, hp, Phase.successor, other (l := .high) (by simp [hp])]
  · have last : ¬ s.bitIdx.val < 39 ↔ s.bitIdx = 39 := by omega
    simp only [controlTable, hp, Phase.successor, other (l := .low) (by simp [hp]), if_true, ← last, ite_not]

theorem tick_phase_eq_controlTable {s u : State} (hu : Tick s u) (hr : s.rst = false) : u.phase = controlTable s := by
  cases hu with
  | reset hr' => simp [hr] at hr'
  | accept ha =>
    obtain ⟨hp, -, hs⟩ := ha
    simp [controlTable_idle hp, hs]
  | rest _ hp hs => simp [controlTable_idle hp, hs, hp]
  | timedMore _ hN ht => simp [controlTable_timed hN, ht]
  | timedLast _ hN ht => simp [controlTable_timed hN, ht]
  | matched _ hm hl hc => simp [controlTable_expected hm hl, hc]
  | count _ hm hl =>
    obtain ⟨hp, -⟩ := onCount_advance hm
    exact hp.trans (controlTable_other hm hl).symm
  | timeout _ hm hl hc => simp [controlTable_expected hm hl, hc]
  | valid _ hp | mismatch _ hp => simp [controlTable_checksum hp]

/-- Settles O30: without a reset the table's rows are the kinds of tick. -/
theorem controlMovesOnlyByTheTable : Obligations.ControlMovesOnlyByTheTable := by
  intro s t h
  refine ⟨fun hr => ?_, fun hr => ?_⟩
  · obtain ⟨u, hu, rfl⟩ := step_tick h
    exact tick_phase_eq_controlTable (u := u) hu hr
  · cases (step_reset hr).symm.trans h
    rfl

end Sys2Proof.Machine
end

section
/-!
The Bit Capture (42_bit_capture.md): the shift (R144), the two ticks of the bit loop (R140 to R145), one symbol (R147),
the waveform of a frame (R151), and two reads of equal samples (R152).
-/

namespace Sys2Proof.Machine

/-! The shift and the bit decision -/

/-- Settles O23: bit 0 and the bits above it. -/
theorem shiftMovesBitsUpOnePlace : Obligations.ShiftMovesBitsUpOnePlace :=
  fun sh b => ⟨shiftIn_getLsbD_zero sh b, shiftIn_getLsbD_succ sh b⟩

theorem decideBit_of_lt {n r : Nat} (h : r < n) : decideBit n r = true :=
  decide_eq_true h

/-- A tie is 0, and 0 = 0 is a tie (R143). -/
theorem decideBit_of_le {n r : Nat} (h : n ≤ r) : decideBit n r = false :=
  decide_eq_false (Nat.not_lt.mpr h)

theorem nextPosition_last {s : State} (h : s.bitIdx = 39) : nextPosition s = { s with phase := .checksum } :=
  if_pos h

theorem nextPosition_more {s : State} (h : s.bitIdx ≠ 39) :
    nextPosition s = { s with bitIdx := s.bitIdx + 1, phase := .bitLow } :=
  if_neg h

/-! One tick. Where a lemma is rewritten with at an updated state, `by exact` leaves its hypothesis until the rewrite has
found that state. -/

theorem exec_bitLow_ends {s : State} (h : s.lineSample = .high) :
    exec .bitLow s = .next { s with cnt := 0, refCnt := s.cnt, phase := .bitHigh } := by
  have hne : s.lineSample ≠ .low := by simp [h]
  rw [exec, execBitLow, measure_ends hne]

theorem exec_bitHigh_ends {s : State} (h : s.lineSample = .low) :
    exec .bitHigh s
      = .next (nextPosition { s with cnt := 0, sh := shiftIn s.sh (decideBit s.cnt s.refCnt) }) := by
  have hne : s.lineSample ≠ .high := by simp [h]
  rw [exec, execBitHigh, measure_ends hne]

theorem exec_bitHigh_more {s : State} {b : Bool} (h : s.lineSample = .low) (hi : s.bitIdx.val < 39)
    (hb : decideBit s.cnt s.refCnt = b) : exec .bitHigh s = .next { s with
      cnt := 0, sh := shiftIn s.sh b, bitIdx := s.bitIdx + 1, phase := .bitLow } := by
  rw [exec_bitHigh_ends h, hb, nextPosition_more (Fin.ne_of_lt (by exact hi))]

theorem exec_bitHigh_last {s : State} {b : Bool} (h : s.lineSample = .low) (hi : s.bitIdx = 39)
    (hb : decideBit s.cnt s.refCnt = b) : exec .bitHigh s = .next { s with
      cnt := 0, sh := shiftIn s.sh b, phase := .checksum } := by
  rw [exec_bitHigh_ends h, hb, nextPosition_last (by exact hi)]

/-- Settles O21: the three things a measurement tick at the low level can do. -/
theorem bitLowTick : Obligations.BitLowTick :=
  ⟨fun _ => exec_measuring_counts (p := .bitLow) rfl, fun _ => exec_measuring_timeout (p := .bitLow) rfl,
    fun _ => exec_bitLow_ends⟩

/-- Settles O22: as BIT_LOW, with the count split by the bit it decides and by the position. -/
theorem bitHighTick : Obligations.BitHighTick :=
  ⟨fun _ => exec_measuring_counts (p := .bitHigh) rfl, fun _ => exec_measuring_timeout (p := .bitHigh) rfl,
    fun _ hl hi h => exec_bitHigh_more hl hi (decideBit_of_lt h),
    fun _ hl hi h => exec_bitHigh_more hl hi (decideBit_of_le h),
    fun _ hl hi h => exec_bitHigh_last hl hi (decideBit_of_lt h),
    fun _ hl hi h => exec_bitHigh_last hl hi (decideBit_of_le h)⟩

/-! One symbol -/

/-- The low pulse and the first high sample: the reference count is kept (R140). -/
theorem run_reference {s : State} {low rest : List Inputs} {y : Inputs} (hp : s.phase = .bitLow) (hc : s.cnt = 0)
    (hn : low.length ≤ s.params.cycleBudget - 1) (hin : s.inputs = low ++ y :: rest)
    (hlow : ∀ z ∈ low, z.rst = false ∧ z.line = .low) (hyr : y.rst = false) (hyl : y.line = .high) :
    runTicks (low.length + 1) s = .next { s with
      cnt := 0, refCnt := low.length, phase := .bitHigh, inputs := rest, tick := s.tick + low.length + 1 } := by
  have run := run_count (s := s) (by rw [hp]; rfl) hc hn hin (by simpa [hp] using hlow) hyr (by simp [hp, hyl])
  rwa [onCount_bitLow (by exact hp)] at run

/-- Settles O24: the reference is counted and kept, the data pulse is counted, and one more sample decides. -/
theorem symbolDecidesByPulseLength : Obligations.SymbolDecidesByPulseLength := by
  rintro s a c low high rest x hp hc ha1 ha hc1 hcB hin hlowlen rfl hlow hhigh hxr hxl
  obtain ⟨a, rfl⟩ : ∃ k, a = k + 1 := ⟨a - 1, by omega⟩
  obtain rfl : low.length = a := hlowlen
  refine ⟨?_, ?_⟩
  · obtain ⟨y, high, rfl⟩ := List.exists_cons_of_length_pos hc1
    obtain ⟨hyr, hyl⟩ := hhigh y (by simp)
    have reference := run_reference (rest := high ++ x :: rest) hp hc (by omega) (by simpa using hin) hlow hyr hyl
    obtain ⟨data, -⟩ := measurementCountsMatchingSamples
      { s with
        cnt := 0, refCnt := low.length, phase := .bitHigh, inputs := high ++ x :: rest
        tick := s.tick + low.length + 1 }
      high.length high rest x rfl rfl (Nat.le_sub_one_of_lt hcB) rfl rfl
      (by simpa using fun z hz => hhigh z (List.mem_cons_of_mem y hz)) hxr (by simp [hxl])
    exact ⟨_, (runTicks_add _ _ reference).trans (data _ le_rfl), rfl, rfl, rfl⟩
  · have hbit : decide (low.length < high.length - 1) = decide (low.length + 1 < high.length) :=
      decide_eq_decide.mpr (by omega)
    have run := run_symbol hp hc (by omega) hc1 hcB hin hlow hhigh hxr hxl
    rw [hbit] at run
    refine ⟨_, run, ?_⟩
    by_cases hi : s.bitIdx = 39
    · simp [nextPosition_last, hi]
    · simp [nextPosition_more, hi, (bitIdx_succ hi).1]

/-! The waveform of a frame -/

theorem samples_append (rs rs' : List Run) : samples (rs ++ rs') = samples rs ++ samples rs' := by
  induction rs with
  | nil => rfl
  | cons r rs ih => rw [List.cons_append, samples, samples, ih, List.append_assoc]

theorem samples_response (ackLow ackHigh : Nat) (symbols : List (Nat × Nat)) :
    samples (responseRuns ackLow ackHigh symbols) = List.replicate ackLow .low
      ++ (List.replicate ackHigh .high ++ (samples (symbolsRuns symbols) ++ [.low])) := by
  simp [responseRuns, samples, samples_append]

/-- The acknowledge: its two pulses and the first sample of the low pulse after them. -/
theorem run_acknowledge {s : State} {low high rest : List Inputs} {x : Inputs} (hp : s.phase = .ackLow)
    (hc : s.cnt = 0) (hlB : low.length ≤ s.params.cycleBudget - 1) (h1 : 1 ≤ high.length)
    (hhB : high.length ≤ s.params.cycleBudget) (hin : s.inputs = low ++ high ++ x :: rest)
    (hlow : ∀ y ∈ low, y.rst = false ∧ y.line = .low) (hhigh : ∀ y ∈ high, y.rst = false ∧ y.line = .high)
    (hxr : x.rst = false) (hxl : x.line = .low) :
    runTicks (low.length + high.length + 1) s = .next { s with
      cnt := 0, phase := .bitLow, bitIdx := 0, inputs := rest, tick := s.tick + (low.length + high.length + 1) } := by
  obtain ⟨y, high, rfl⟩ := List.exists_cons_of_length_pos h1
  obtain ⟨hyr, hyl⟩ := hhigh y (by simp)
  have low_ends := run_count (s := s) (rest := high ++ x :: rest) (by rw [hp]; rfl) hc hlB (by simpa using hin)
    (by simpa [hp] using hlow) hyr (by simp [hp, hyl])
  rw [onCount_ackLow (by exact hp)] at low_ends
  have high_ends := run_count (s := State.advance { s with
      cnt := 0, phase := .ackHigh, inputs := y :: (high ++ x :: rest), tick := s.tick + low.length })
    rfl rfl (Nat.le_sub_one_of_lt hhB) rfl (by simpa using fun z hz => hhigh z (List.mem_cons_of_mem y hz)) hxr
    (by simp [hxl])
  rw [onCount_ackHigh rfl] at high_ends
  have hlen : low.length + (y :: high).length + 1 = low.length + 1 + (high.length + 1) := by simp; omega
  rw [hlen, runTicks_add _ _ low_ends, high_ends]
  simp [State.advance, Nat.add_assoc]

/-- From the first sample of a response to CHECKSUM: the acknowledge, then the bit loop. -/
theorem run_response {s : State} {f : Frame} {ackLow ackHigh : Nat} {symbols : List (Nat × Nat)}
    {response rest : List Inputs} (hp : s.phase = .ackLow) (hc : s.cnt = 0) (hsh : s.sh = 0#40)
    (hlow : ackLow ≤ s.params.cycleBudget - 1) (h1 : 1 ≤ ackHigh) (hhigh : ackHigh ≤ s.params.cycleBudget - 1)
    (hsym : ∀ p ∈ symbols, 1 ≤ p.1 ∧ p.1 ≤ s.params.cycleBudget - 1 ∧ 1 ≤ p.2 ∧ p.2 ≤ s.params.cycleBudget - 1)
    (hbits : symbols.map (fun p => decide (p.1 < p.2)) = arrivalBits f) (hin : s.inputs = response ++ rest)
    (hr : ∀ x ∈ response, x.rst = false)
    (hl : response.map Inputs.line = samples (responseRuns ackLow ackHigh symbols)) :
    ∃ t, runTicks response.length s = .next t ∧ t.phase = .checksum ∧ t.sh = f ∧ t.frame40 = s.frame40
      ∧ t.frameValid = s.frameValid ∧ t.inputs = rest := by
  have h40 : symbols.length = 40 := by simpa [arrivalBits] using congrArg List.length hbits
  rw [samples_response] at hl
  obtain ⟨low, afterLow, rfl, rfl, lowLine, hl⟩ := split_run hl
  obtain ⟨high, afterHigh, rfl, rfl, highLine, hl⟩ := split_run hl
  obtain ⟨x, bits, rfl⟩ : ∃ x bits, afterHigh = x :: bits := List.exists_cons_of_ne_nil (by rintro rfl; simp at hl)
  have hx : x.line = .low := symbols_begin_low (fun p hp => (hsym p hp).1) hl
  have acknowledge := run_acknowledge (rest := bits ++ rest) hp hc hlow h1 (by omega) (by simpa using hin)
    (fun y hy => ⟨hr y (by simp [hy]), lowLine y hy⟩) (fun y hy => ⟨hr y (by simp [hy]), highLine y hy⟩)
    (hr x (by simp)) hx
  obtain ⟨t, bitLoop, hpt, hsht, ht⟩ := run_symbols symbols
    { s with
      cnt := 0, phase := .bitLow, bitIdx := 0, inputs := bits ++ rest
      tick := s.tick + (low.length + high.length + 1) }
    bits rest (by rintro rfl; simp at h40) (by simpa using h40) rfl rfl hsym rfl (fun y hy => hr y (by simp [hy]))
    (by simpa [hx] using hl)
  have hlen : (low ++ (high ++ x :: bits)).length = low.length + high.length + 1 + bits.length := by simp; omega
  refine ⟨t, ?_, hpt, ?_, ht⟩
  · rw [hlen, runTicks_add _ _ acknowledge, bitLoop]
  · rw [hsht, hbits]
    exact hsh ▸ foldl_shiftIn_arrivalBits f

theorem step_valid {s : State} (hr : s.rst = false) (hp : s.phase = .checksum) (hk : SumHolds s.sh) :
    step s = .next (State.advance { s with frame40 := s.sh, status := .ok, frameValid := true, phase := .idle }) := by
  rw [step_checksum hr hp, if_pos ((frameChecks_iff s.sh).mpr hk)]

theorem step_mismatch {s : State} (hr : s.rst = false) (hp : s.phase = .checksum) (hk : ¬ SumHolds s.sh) :
    step s = .next (State.advance (raiseFailure .checksumMismatch { s with frame40 := s.sh })) := by
  rw [step_checksum hr hp, if_neg (mt (frameChecks_iff s.sh).mp hk)]

/-- Settles O44: the request, the response into CHECKSUM, and the tick that delivers. -/
theorem waveformOfAFrameDecodesToIt : Obligations.WaveformOfAFrameDecodesToIt := by
  intro s f ackLow ackHigh symbols request response rest hw ha hlow h1 hhigh hsym hbits hin hreq hr hl
  have hno : s.NoReset s.params.tListen :=
    ⟨by simp [hin, hreq], fun y hy => hr y (List.mem_append_left _ (by simpa [hin, ← hreq] using hy))⟩
  obtain ⟨-, -, requested⟩ := firstSampleIsAtTListen s hw ha hno
  obtain ⟨t, responded, hp, hsh, hf, hv, hrest⟩ := run_response (s := s.requested .ackLow 0 s.params.tListen)
    (rest := rest) rfl rfl rfl hlow h1 hhigh hsym hbits (by simp [State.requested, hin, ← hreq])
    (fun y hy => hr y (List.mem_append_right _ hy)) hl
  have run : runTicks (request.length + response.length) s = .next t :=
    hreq ▸ (runTicks_add _ _ requested).trans responded
  refine ⟨⟨t, run, hp, hsh, hf, hrest⟩, fun x xs hx hxr => ?_⟩
  have htr : t.rst = false := by rw [State.rst, State.input_of_cons x (hrest.trans hx), hxr]
  by_cases hk : SumHolds t.sh
  · exact ⟨_, runTicks_snoc run (step_valid htr hp hk), rfl, hsh, fun _ => ⟨rfl, rfl⟩, fun h => absurd (hsh ▸ hk) h⟩
  · exact ⟨_, runTicks_snoc run (step_mismatch htr hp hk), rfl, hsh, fun h => absurd (hsh ▸ h) hk, fun _ => ⟨rfl, hv⟩⟩

/-! Two reads -/

/-- The input due after `k` ticks is the one listed at place `k`. -/
theorem input_of_run {s t : State} {k : Nat} (h : runTicks k s = .next t) (hk : k < s.inputs.length) :
    t.input = s.inputs[k] := by
  obtain ⟨u, hu, -, -, hin, -⟩ := run_total k s
  cases h.symm.trans hu
  exact input_drop hin (List.getElem?_eq_getElem hk)

theorem params_of_run {s t : State} {k : Nat} (h : runTicks k s = .next t) : t.params = s.params := by
  obtain ⟨u, hu, hp, -⟩ := run_total k s
  cases h.symm.trans hu
  exact hp

theorem rst_of_run {s t : State} {k n : Nat} (h : runTicks k s = .next t) (hr : s.NoReset n) (hk : k < n) :
    t.rst = false := by
  obtain ⟨hlen, hall⟩ := hr
  rw [State.rst, input_of_run h (by omega)]
  exact hall _ (List.mem_take_iff_getElem.mpr ⟨k, by omega, rfl⟩)

/-- A read that measures has come to `t_listen`. -/
theorem tListen_le_of_measures {s u : State} {k : Nat} (hw : s.params.wf) (ha : s.AcceptsStart) (h1 : 1 ≤ k)
    (hr : s.NoReset k) (h : runTicks k s = .next u) (hm : u.phase.measures = true) : s.params.tListen ≤ k := by
  by_contra hlt
  obtain ⟨p, n, run, before, -⟩ := run_request hw ha k h1 (by omega) hr
  obtain ⟨hp, -⟩ := before (by omega)
  cases h.symm.trans run
  exact absurd (hm.symm.trans hp) nofun

/-- Settles O45, tick by tick: START clears both blocks alike, and each later tick of the read takes nothing of the
input but `line_i`, from `t_listen` on. -/
theorem readsOfEqualSamplesAreEqual : Obligations.ReadsOfEqualSamplesAreEqual := by
  intro s t n hw hpt hs ht hrs hrt h1 hline hbusy
  induction n, h1 using Nat.le_induction with
  | base =>
    exact ⟨_, _, runTicks_succ 0 (step_accept hs), runTicks_succ 0 (step_accept ht),
      rfl, rfl, rfl, rfl, rfl, rfl, rfl, rfl, rfl⟩
  | succ k h1 ih =>
    obtain ⟨u, v, hu, hv, same⟩ := ih (noReset_of_le hrs (by omega)) (noReset_of_le hrt (by omega))
      (fun i x y hi => hline i x y (by omega)) (fun i hi hk => hbusy i hi (by omega))
    have busy : u.phase ≠ .idle := by
      obtain ⟨u', hu', hb⟩ := hbusy k h1 (by omega)
      cases hu.symm.trans hu'
      exact hb
    have sameLine (hm : u.phase.measures = true) : u.lineSample = v.lineSample := by
      have hks : k < s.inputs.length := hrs.1
      have hkt : k < t.inputs.length := hrt.1
      rw [State.lineSample, State.lineSample, input_of_run hu hks, input_of_run hv hkt]
      exact hline k _ _ (by omega) (tListen_le_of_measures hw hs h1 (noReset_of_le hrs (by omega)) hu hm)
        (List.getElem?_eq_getElem hks) (List.getElem?_eq_getElem hkt)
    obtain ⟨u', v', hu', hv', same'⟩ := step_sameBlock same
      (by rw [params_of_run hu, params_of_run hv, hpt])
      (by rw [rst_of_run hu hrs (by omega), rst_of_run hv hrt (by omega)])
      (fun hp => absurd hp busy) sameLine
    exact ⟨u', v', runTicks_snoc hu hu', runTicks_snoc hv hv', same'⟩

end Sys2Proof.Machine
end

section
/-!
The Frame Validator (43_frame_validator.md): the CHECKSUM tick (R160 to R162), and the one fifth byte that passes (R163).
-/

namespace Sys2Proof.Machine

theorem exec_checksum_valid {s : State} (h : SumHolds s.sh) :
    exec .checksum s = .next { s with frame40 := s.sh, status := .ok, frameValid := true, phase := .idle } :=
  congrArg Host.Outcome.next (if_pos ((frameChecks_iff s.sh).mpr h))

theorem exec_checksum_mismatch {s : State} (h : ¬ SumHolds s.sh) :
    exec .checksum s = .next (raiseFailure .checksumMismatch { s with frame40 := s.sh }) :=
  congrArg Host.Outcome.next (if_neg (mt (frameChecks_iff s.sh).mp h))

/-- Settles O25: the validator's test is the checksum equation, and the failure's entry writes `status` and `phase`. -/
theorem checksumTick : Obligations.ChecksumTick :=
  ⟨fun _ => exec_checksum_valid, fun _ => exec_checksum_mismatch⟩

/-- The checksum equation of five bytes put together is the equation of those bytes. -/
theorem sumHolds_bytes_iff (b0 b1 b2 b3 c : Byte) :
    SumHolds (b0 ++ b1 ++ b2 ++ b3 ++ c) ↔ c.toNat = (b0.toNat + b1.toNat + b2.toNat + b3.toNat) % 256 := by
  obtain ⟨h0, h1, h2, h3, h4⟩ := frameByte_bytes b0 b1 b2 b3 c
  rw [SumHolds, h0, h1, h2, h3, h4]

/-- Settles O26: the sum is below 256, so it is a byte, and a byte is its number. -/
theorem exactlyOneFifthBytePasses : Obligations.ExactlyOneFifthBytePasses := by
  intro b0 b1 b2 b3
  obtain ⟨b4, hb4⟩ : ∃ b4 : Byte, b4.toNat = (b0.toNat + b1.toNat + b2.toNat + b3.toNat) % 256 :=
    ⟨.ofNat 8 (b0.toNat + b1.toNat + b2.toNat + b3.toNat), BitVec.toNat_ofNat _ 8⟩
  refine ⟨b4, hb4, fun s c hs => ?_⟩
  have passes : SumHolds s.sh ↔ c = b4 := by
    rw [hs, sumHolds_bytes_iff, ← hb4, BitVec.toNat_inj]
  by_cases hc : c = b4
  · exact ⟨_, exec_checksum_valid (passes.mpr hc), fun _ => rfl, fun h => absurd hc h⟩
  · exact ⟨_, exec_checksum_mismatch (mt passes.mp hc), fun h => absurd h hc, fun _ => rfl⟩

end Sys2Proof.Machine
end

section
/-!
The host's Measurement Converter (44_host_software.md R171 to R174): its formulas on the bytes, and its range check.
-/

namespace Sys2Proof.Machine

/-- The mask of R172 keeps the low seven bits. -/
theorem temperatureMagnitude_eq (f : Frame) :
    temperatureMagnitude f = (frameByte f 2).toNat % 128 * 256 + (frameByte f 3).toNat := by
  have mask : (frameByte f 2 &&& 0x7F#8).toNat = (frameByte f 2).toNat % 128 := by
    rw [BitVec.toNat_and]
    exact Nat.and_two_pow_sub_one_eq_mod _ 7
  rw [temperatureMagnitude, mask]

/-- Bit 7 of a byte is set from 128 on. -/
theorem byte_sign_iff (b : Byte) : b.getLsbD 7 = true ↔ 128 ≤ b.toNat := by
  have msb := BitVec.msb_eq_decide b
  rw [BitVec.msb_eq_getLsbD_last] at msb
  exact msb ▸ decide_eq_true_iff

theorem temperatureTenths_eq (f : Frame) :
    temperatureTenths f = if 128 ≤ (frameByte f 2).toNat then -(temperatureMagnitude f : Int)
      else (temperatureMagnitude f : Int) :=
  if_congr (byte_sign_iff _) rfl rfl

theorem inRange_iff (t : Int) (h : Nat) : inRange t h = true ↔ -400 ≤ t ∧ t ≤ 800 ∧ h ≤ 1000 :=
  decide_eq_true_iff

theorem convert_of_inRange {f : Frame} (h : inRange (temperatureTenths f) (humidityTenths f) = true) :
    convert f = .reading (temperatureTenths f) (humidityTenths f) :=
  if_pos h

theorem convert_of_not_inRange {f : Frame} (h : ¬ inRange (temperatureTenths f) (humidityTenths f) = true) :
    convert f = .error .outOfRange :=
  if_neg h

/-- Settles O48: the statement's numbers are the converter's, and its range is the converter's test. -/
theorem converterAcceptsExactlyTheRange : Obligations.ConverterAcceptsExactlyTheRange := by
  intro f h m t hh hm ht
  rw [← temperatureMagnitude_eq] at hm
  rw [hm, ← temperatureTenths_eq] at ht
  obtain rfl : h = humidityTenths f := hh
  subst ht
  rw [← inRange_iff]
  refine ⟨fun hin => ?_, fun hout => ?_⟩
  · rw [convert_of_inRange hin]
    exact ⟨rfl, rfl⟩
  · rw [convert_of_not_inRange hout]
    exact ⟨rfl, rfl⟩

end Sys2Proof.Machine
end

section
/-!
The host's Read Scheduler and `initialize` (44_host_software.md R178 to R183): when a call is short-circuited, one poll
of a busy block, the wait for `ready`, one read of the block, the whole call.
-/

namespace Sys2Proof.Machine

/-! The 2000 ms between attempts -/

/-- Exactly an unforced call less than 2000 ms after an attempt is short-circuited (R180). -/
theorem tooSoon_iff (force : Bool) (now : Nat) (h : ReadState) :
    tooSoon force now h = true ↔ force = false ∧ ∃ last, h.lastAttemptMs = some last ∧ now < last + 2000 := by
  cases hl : h.lastAttemptMs with
  | none => simp [tooSoon, hl]
  | some last =>
    have sub : now - last < 2000 ↔ now < last + 2000 := by omega
    simp [tooSoon, hl, sub]

theorem hostRead_of_tooSoon {force : Bool} {now : Nat} {s : State} {r : ReadResult}
    (h : tooSoon force now s.host = true) (hr : s.host.lastResult = some r) : hostRead force now s = some (r, s) := by
  simp [hostRead, h, hr]

/-- A call that is not short-circuited does what a forced call does. -/
theorem hostRead_eq_forced {force : Bool} {now : Nat} {s : State} (h : ¬ tooSoon force now s.host = true) :
    hostRead force now s = hostRead true now s := by
  have forced : ¬ tooSoon true now s.host = true := by simp [tooSoon_iff]
  rw [hostRead, hostRead, if_neg h, if_neg forced]

/-- Settles O49: by the time that has passed since the last attempt. -/
theorem earlyCallsReturnTheLastResult : Obligations.EarlyCallsReturnTheLastResult := by
  refine ⟨fun s last now r hl hr _ hlt => ?_, fun s last now hl hle => ?_, fun s now hl => ?_, fun _ => rfl⟩
  · exact hostRead_of_tooSoon ((tooSoon_iff _ _ _).mpr ⟨rfl, last, hl, hlt⟩) hr
  · refine hostRead_eq_forced fun h => ?_
    obtain ⟨-, last', hl', hlt⟩ := (tooSoon_iff _ _ _).mp h
    cases hl.symm.trans hl'
    omega
  · refine hostRead_eq_forced fun h => ?_
    obtain ⟨-, last', hl', -⟩ := (tooSoon_iff _ _ _).mp h
    cases hl.symm.trans hl'

/-! The wait for `ready` -/

theorem waitReady_idle {s : State} (n : Nat) (hp : s.phase = .idle) : waitReady n s = some s := by
  cases n <;> simp [waitReady, hp, Phase.ready]

theorem waitReady_busy {s t : State} (n : Nat) (hp : s.phase ≠ .idle) (h : hostTick false s = .next t) :
    waitReady (n + 1) s = waitReady n t := by
  simp [waitReady, hp, Phase.ready, h]

/-- One poll of a busy block keeps the invariants and what is outside the block, leaves less to wait for, and, if it
ends the read, reports. -/
theorem hostTick_busy {s : State} (hw : s.params.wf) (hR : s.ResultInv) (hT : s.TimerInv) (hp : s.phase ≠ .idle) :
    ∃ t, hostTick false s = .next t ∧ t.params = s.params ∧ t.host = s.host ∧ t.ResultInv ∧ t.TimerInv
      ∧ t.rank < s.rank ∧ (t.phase = .idle → t.status ≠ .none) := by
  obtain ⟨u, hu, h⟩ := exists_tick (s.drive false false)
  obtain ⟨hparams, hhost, -, -⟩ := step_outside h
  have hcnt : s.cnt ≤ s.params.cycleBudget - 1 := by
    obtain ⟨-, -, -, -, -, -, hcnt⟩ := hR
    exact hcnt
  have reports : u.phase = .idle → u.status ≠ .none := fun hidle =>
    status_ne_none_of_busy_falls hu rfl (decide_eq_true hp) (decide_eq_false (not_not_intro hidle))
  exact ⟨u.advance, h, hparams, hhost, stepKeepsTheResultInvariant (s.drive false false) _ hR h,
    stepKeepsTheTimerInvariant (s.drive false false) _ hw hT h,
    step_rank (s := s.drive false false) hw hT hcnt hp rfl h, reports⟩

/-- START at the idle block begins a read: all clear, in SETTLE. -/
theorem hostTick_idle {s : State} (hw : s.params.wf) (hp : s.phase = .idle) :
    ∃ t, hostTick true s = .next t ∧ t.params = s.params ∧ t.host = s.host ∧ t.ResultInv ∧ t.TimerInv
      ∧ t.phase = .settle :=
  ⟨_, step_accept ⟨hp, rfl, rfl⟩, rfl, rfl, resultInv_clear s .settle, timerInv_of_timer_eq_zero hw rfl, rfl⟩

/-- A wait with as much fuel as the rank ends idle; if it began in a busy state, or in an idle one with a result, it
ends with one. -/
theorem waitReady_returns {n : Nat} {s : State} (hw : s.params.wf) (hR : s.ResultInv) (hT : s.TimerInv)
    (hn : s.rank ≤ n) :
    ∃ t, waitReady n s = some t ∧ t.phase = .idle ∧ t.params = s.params ∧ t.host = s.host
      ∧ ((s.phase = .idle → s.status ≠ .none) → t.status ≠ .none) := by
  induction n generalizing s with
  | zero =>
    have hp : s.phase = .idle := by
      by_contra hb
      have := rank_pos hb
      omega
    exact ⟨s, waitReady_idle 0 hp, hp, rfl, rfl, fun h => h hp⟩
  | succ n ih =>
    by_cases hp : s.phase = .idle
    · exact ⟨s, waitReady_idle _ hp, hp, rfl, rfl, fun h => h hp⟩
    · obtain ⟨v, hv, hparams, hhost, hR', hT', hlt, reported⟩ := hostTick_busy hw hR hT hp
      obtain ⟨t, ht, hidle, hparams', hhost', hstatus⟩ := ih (s := v) (hparams ▸ hw) hR' hT' (by omega)
      exact ⟨t, (waitReady_busy n hp hv).trans ht, hidle, hparams'.trans hparams, hhost'.trans hhost,
        fun _ => hstatus reported⟩

/-! The whole call -/

/-- A read of the idle block ends idle with an outcome in `status`; the host's record is untouched. -/
theorem blockRead_returns {s : State} (hw : s.params.wf) (hp : s.phase = .idle) :
    ∃ t, blockRead s = some t ∧ t.phase = .idle ∧ t.host = s.host ∧ t.status ≠ .none := by
  obtain ⟨v, hv, hparams, hhost, hR, hT, hsettle⟩ := hostTick_idle hw hp
  have hw' : v.params.wf := hparams ▸ hw
  obtain ⟨t, ht, hidle, -, hhost', hstatus⟩ := waitReady_returns hw' hR hT (rank_lt_readBound hw').le
  refine ⟨t, ?_, hidle, hhost'.trans hhost, hstatus fun hi => absurd (hsettle.symm.trans hi) nofun⟩
  rw [blockRead, hv, ← hparams]
  exact ht

theorem resultOf_returns {s : State} (h : s.status ≠ .none) :
    ∃ r, resultOf s = some r ∧ (∀ f, s.status = .failed f → r = .error (.block f))
      ∧ (s.status = .ok → r = convert s.frame40) := by
  cases hs : s.status with
  | none => exact absurd hs h
  | ok => exact ⟨convert s.frame40, by rw [resultOf, hs], nofun, fun _ => rfl⟩
  | failed f => exact ⟨.error (.block f), by rw [resultOf, hs], fun _ e => by cases e; rfl, nofun⟩

/-- The state in which a call waits for `ready`: the time of its attempt is on record (90_conflicts.md C6). -/
def State.recordAttempt (s : State) (now : Nat) : State :=
  { s with host := { s.host with lastAttemptMs := some now } }

/-- The state in which a call returns: its result is on record (R181). -/
def State.recordResult (s : State) (r : ReadResult) : State :=
  { s with host := { s.host with lastResult := some r } }

theorem hostRead_of_attempt {force : Bool} {now : Nat} {s t u : State} {r : ReadResult}
    (h : tooSoon force now s.host = false) (ht : waitReady s.params.readBound (s.recordAttempt now) = some t)
    (hu : blockRead t = some u) (hr : resultOf u = some r) : hostRead force now s = some (r, u.recordResult r) := by
  rw [State.recordAttempt] at ht
  simp [hostRead, h, ht, hu, hr, State.recordResult]

/-- Settles O50: the record answers a call that comes too soon; any other waits for `ready`, reads, and keeps the
outcome. -/
theorem everyReadCallReturns : Obligations.EveryReadCallReturns := by
  intro s force now hw hR hT hH
  cases hs : tooSoon force now s.host with
  | true =>
    obtain ⟨-, last, hl, -⟩ := (tooSoon_iff _ _ _).mp hs
    obtain ⟨r, hr⟩ := Option.isSome_iff_exists.mp (hH (by rw [hl]; rfl))
    exact ⟨r, s, hostRead_of_tooSoon hs hr, hH, nofun⟩
  | false =>
    obtain ⟨t, ht, hidle, hparams, hhost, -⟩ :=
      waitReady_returns (s := s.recordAttempt now) hw hR hT (rank_lt_readBound hw).le
    obtain ⟨u, hu, hidle', hhost', hstatus⟩ := blockRead_returns (hparams ▸ hw) hidle
    obtain ⟨r, hr, hfailed, hok⟩ := resultOf_returns hstatus
    have recorded : u.host.lastAttemptMs = some now := by rw [hhost', hhost]; rfl
    exact ⟨r, u.recordResult r, hostRead_of_attempt hs ht hu hr, fun _ => rfl,
      fun _ => ⟨recorded, rfl, hidle', hfailed, hok, hstatus⟩⟩

/-- Settles O51: `initialize` is a RESET tick of the state with the parameters and ReadState set. -/
theorem initializeFixesParametersAndResets : Obligations.InitializeFixesParametersAndResets :=
  fun _ _ _ _ => ⟨_, step_reset rfl, rfl, rfl, rfl, rfl, rfl, rfl, rfl, rfl, rfl, rfl, rfl⟩

end Sys2Proof.Machine
end

section
/-!
Entering a failure (60_exceptions.md R210): the ports before it and after it, and what it writes.
-/

namespace Sys2Proof.Machine

/-- The ports of a measuring phase: a read is on, in the critical section, with the line released. -/
theorem outputs_of_measures {s : State} (hm : s.phase.measures = true) :
    s.outputs.busy = true ∧ s.outputs.ready = false ∧ s.outputs.crit = true ∧ s.outputs.lineOe = false := by
  have hbusy : s.phase.busy = true := busy_of_measures hm
  have hready : s.phase.ready = false := decide_eq_false (of_decide_eq_true hbusy)
  have hlineOe : s.phase.lineOe = false :=
    Bool.eq_false_iff.mpr fun h => by simp [not_measures_of_lineOe h] at hm
  exact ⟨hbusy, hready, crit_of_measures hm, hlineOe⟩

/-- The ports once a failure is entered: those of IDLE. -/
theorem outputs_raiseFailure (f : Failure) (s : State) :
    (raiseFailure f s).outputs.busy = false ∧ (raiseFailure f s).outputs.ready = true
    ∧ (raiseFailure f s).outputs.crit = false ∧ (raiseFailure f s).outputs.lineOe = false :=
  ⟨rfl, rfl, rfl, rfl⟩

/-- Settles O29: the phase's operation is the failure's entry; the invariant of R28 holds the result ports at 0 in a
busy phase, and the entry does not write them. -/
theorem failureEntryWritesStatusAndPhase : Obligations.FailureEntryWritesStatusAndPhase := by
  constructor
  · rintro s f ⟨hresult, -⟩ hf hl hc
    have hm : s.phase.measures = true := measures_of_timeoutFailure hf
    have entry : exec s.phase.instr s = .next (raiseFailure f s) := exec_measuring_timeout hf hl hc
    obtain ⟨-, hvalid, hframe⟩ := hresult (busy_of_measures hm)
    obtain ⟨hbusy, hready, hcrit, hlineOe⟩ := outputs_of_measures hm
    refine ⟨entry, hframe, hvalid, hbusy, hready, hcrit, hlineOe, fun t ht => ?_⟩
    cases entry.symm.trans ht
    exact outputs_raiseFailure f s
  · intro s hp hk
    rw [hp]
    exact exec_checksum_mismatch hk

end Sys2Proof.Machine
end

section
/-!
Reset (70_reset_and_hazards.md R230, R231), and the reads of a sensor that does not answer as it should: a silent line
(R243), a line stuck low (R244), any line at all (R247).
-/

namespace Sys2Proof.Machine

/-! Reset -/

/-- Settles O6: the fields as written, and the open parameters legal by construction. -/
theorem resetStateHasTheStatedValues : Obligations.ResetStateHasTheStatedValues :=
  ⟨rfl, rfl, rfl, rfl, rfl, rfl, rfl, rfl, rfl, rfl, Config.params_wf, rfl, rfl⟩

/-- Settles O7: the operation is `clear`, and with `rst` raised the step is the operation. -/
theorem resetClearsEverythingInAnyPhase : Obligations.ResetClearsEverythingInAnyPhase :=
  ⟨fun _ _ => rfl, fun _ => step_reset⟩

/-- Settles O35: the state after reset is a cleared, idle one with legal parameters. -/
theorem resetMeetsTheInvariants : Obligations.ResetMeetsTheInvariants :=
  ⟨resultInv_clear State.reset .idle, timerInv_of_timer_eq_zero Config.params_wf rfl, trivial,
    ⟨Nat.two_pow_pos _, Nat.two_pow_pos _, Nat.two_pow_pos _⟩, nofun⟩

/-! A line that holds one level from `t_listen` on -/

/-- A read that begins at `s` stands at the first sample at `t_listen`, with the listed ticks after it still to come. -/
theorem run_to_first_sample {s : State} {n : Nat} {l : Level} (hw : s.params.wf) (ha : s.AcceptsStart)
    (hr : s.NoReset (s.params.tListen + n))
    (hl : ∀ x ∈ (s.inputs.take (s.params.tListen + n)).drop s.params.tListen, x.line = l) :
    runTicks s.params.tListen s = .next (s.requested .ackLow 0 s.params.tListen)
    ∧ (s.requested .ackLow 0 s.params.tListen).NoReset n
    ∧ ∀ x ∈ (s.requested .ackLow 0 s.params.tListen).inputs.take n, x.line = l := by
  obtain ⟨-, -, run⟩ := firstSampleIsAtTListen s hw ha (noReset_of_le hr (by omega))
  rw [List.drop_take, Nat.add_sub_cancel_left] at hl
  exact ⟨run, noReset_later hr rfl le_rfl, hl⟩

/-- Settles O43: the measurement begun in ACK_LOW at `t_listen` times out. -/
theorem stuckLowLineFailsWithStartLowTimeout : Obligations.StuckLowLineFailsWithStartLowTimeout := by
  intro s hw ha hr hl
  obtain ⟨run, hr', hl'⟩ := run_to_first_sample hw ha hr hl
  obtain ⟨during, -, final⟩ := measurementTimesOutAtTheBudget (s.requested .ackLow 0 s.params.tListen)
    .startLowTimeout hw rfl rfl hr' fun y hy => (hl' y hy).trans expectedLevel_ackLow.symm
  exact ⟨fun k hk => ⟨_, (runTicks_add _ k run).trans (during k hk), rfl⟩,
    _, (runTicks_add _ _ run).trans final, rfl, rfl, rfl, rfl, rfl⟩

/-- In ACK_LOW with the line high for the budget and one sample more: the first sample leads to ACK_HIGH, where the
others time out. -/
theorem silent_in_ackLow {u : State} (hw : u.params.wf) (hp : u.phase = .ackLow)
    (hr : u.NoReset (u.params.cycleBudget + 1))
    (hl : ∀ x ∈ u.inputs.take (u.params.cycleBudget + 1), x.line = .high) :
    u.lineSample = .high ∧ ∃ v, step u = .next v
      ∧ (∀ k < u.params.cycleBudget, ∃ t, runTicks k v = .next t ∧ t.phase = .ackHigh)
      ∧ ∃ t, runTicks u.params.cycleBudget v = .next t ∧ t.phase = .idle ∧ t.status = .failed .startHighTimeout
        ∧ t.frameValid = u.frameValid ∧ t.frame40 = u.frame40 := by
  have high : u.lineSample = .high := hl _ (input_mem_take (k := 0) rfl (by omega) hr.1)
  have ends := step_measure_ends (rst_of_run (runTicks_zero u) hr (by omega)) (by rw [hp]; rfl) (by simp [hp, high])
  rw [onCount_ackLow hp] at ends
  have later : u.inputs.tail.take u.params.cycleBudget ⊆ u.inputs.take (u.params.cycleBudget + 1) := by
    have tail := List.tail_take_eq_take_tail u.inputs (u.params.cycleBudget + 1)
    rw [Nat.add_sub_cancel] at tail
    exact tail ▸ List.tail_subset _
  obtain ⟨during, -, final⟩ := measurementTimesOutAtTheBudget (State.advance { u with cnt := 0, phase := .ackHigh })
    .startHighTimeout hw rfl rfl (noReset_later (m := 1) hr List.drop_one.symm (Nat.add_comm 1 u.params.cycleBudget).le)
    fun y hy => (hl y (later hy)).trans expectedLevel_ackHigh.symm
  exact ⟨high, _, ends, fun k hk => ⟨_, during k hk, rfl⟩, _, final, rfl, rfl, rfl, rfl⟩

/-- Settles O42: the first sample ends ACK_LOW, and the measurement that ACK_HIGH begins times out. -/
theorem silentLineFailsWithStartHighTimeout : Obligations.SilentLineFailsWithStartHighTimeout := by
  intro s hw ha hr hl
  obtain ⟨run, hr', hl'⟩ := run_to_first_sample (n := s.params.cycleBudget + 1) hw ha hr hl
  obtain ⟨high, v, ends, during, t, final, idle, failed, valid, frame⟩ := silent_in_ackLow
    (u := s.requested .ackLow 0 s.params.tListen) hw rfl hr' hl'
  have run' : runTicks (s.params.tListen + 1) s = .next v := runTicks_snoc run ends
  refine ⟨⟨_, run, rfl, ?_⟩, fun k h1 hk => ?_, t, ?_, idle, failed, valid, frame, ?_⟩
  · rw [measure_ends (by simp [high])]
    rfl
  · obtain ⟨k, rfl⟩ := Nat.exists_eq_add_of_le h1
    have hk' : k < s.params.cycleBudget := by omega
    obtain ⟨t, ht, hp⟩ := during k hk'
    exact ⟨t, by rw [← Nat.add_assoc, runTicks_add _ _ run', ht], hp⟩
  · rw [Nat.add_right_comm, runTicks_add _ _ run']
    exact final
  · rw [State.outputs, idle]
    rfl

/-! Any line -/

/-- A run of `n` ticks ends the read that `s` is in: busy and without an outcome until then, idle with one after it. -/
def EndsAfter (s : State) (n : Nat) : Prop :=
  (∀ k < n, ∃ t, runTicks k s = .next t ∧ t.outputs.busy = true ∧ t.status = .none)
  ∧ ∃ t, runTicks n s = .next t ∧ t.outputs.busy = false ∧ t.status ≠ .none

theorem endsAfter_zero {s : State} (hp : s.phase = .idle) (hs : s.status ≠ .none) : EndsAfter s 0 :=
  ⟨nofun, s, rfl, by rw [State.outputs, hp]; rfl, hs⟩

theorem endsAfter_succ {s t : State} {n : Nat} (h : step s = .next t) (hb : s.phase.busy = true)
    (hs : s.status = .none) (ht : EndsAfter t n) : EndsAfter s (n + 1) := by
  obtain ⟨during, final⟩ := ht
  refine ⟨fun k hk => ?_, by rwa [runTicks_succ n h]⟩
  cases k with
  | zero => exact ⟨s, rfl, hb, hs⟩
  | succ k => rw [runTicks_succ k h]; exact during k (by omega)

/-- While busy, a tick without a reset is the host's poll: `start` is not read. -/
theorem step_eq_hostTick {s : State} (hr : s.rst = false) (hp : s.phase ≠ .idle) : step s = hostTick false s :=
  step_eq_of_sameBlock ⟨rfl, rfl, rfl, rfl, rfl, rfl, rfl, rfl, rfl⟩ rfl rfl rfl rfl hr (fun h => absurd h hp)
    fun _ => rfl

/-- A read in progress ends within its rank. -/
theorem endsAfter_of_rank_le {n : Nat} {s : State} (hw : s.params.wf) (hR : s.ResultInv) (hT : s.TimerInv)
    (hr : s.NoReset n) (hn : s.rank ≤ n) (hs : s.phase = .idle → s.status ≠ .none) : ∃ m ≤ n, EndsAfter s m := by
  induction n generalizing s with
  | zero =>
    have hp : s.phase = .idle := by
      by_contra hb
      have := rank_pos hb
      omega
    exact ⟨0, le_rfl, endsAfter_zero hp (hs hp)⟩
  | succ n ih =>
    by_cases hp : s.phase = .idle
    · exact ⟨0, by omega, endsAfter_zero hp (hs hp)⟩
    · have hb : s.phase.busy = true := decide_eq_true hp
      obtain ⟨busy, -⟩ := id hR
      obtain ⟨hnone, -⟩ := busy hb
      obtain ⟨t, ht, hparams, -, hR', hT', hlt, reported⟩ := hostTick_busy hw hR hT hp
      rw [← step_eq_hostTick (rst_of_run (runTicks_zero s) hr (by omega)) hp] at ht
      obtain ⟨-, -, hin, -⟩ := step_outside ht
      obtain ⟨m, hm, ends⟩ := ih (s := t) (hparams ▸ hw) hR' hT'
        (noReset_later (m := 1) hr (by rw [hin, List.drop_one]) (by omega)) (by omega) reported
      exact ⟨m + 1, by omega, endsAfter_succ ht hb hnone ends⟩

/-- Settles O41: the accepting tick leads to a busy state, whose rank is below the bound. -/
theorem everyReadEndsWithinTheBound : Obligations.EveryReadEndsWithinTheBound := by
  intro s hw ha hr
  refine ⟨rfl, ?_⟩
  have hlt : (s.requested .settle 0 1).rank < s.params.readBound := rank_lt_readBound hw
  obtain ⟨n, hn, during, t, final, idle, outcome⟩ := endsAfter_of_rank_le (s := s.requested .settle 0 1) hw
    (resultInv_clear s .settle) (timerInv_of_timer_eq_zero hw rfl)
    (noReset_later (k := s.params.readBound - 1) (m := 1) hr rfl (by omega)) (by omega) nofun
  have begun : n ≠ 0 := by
    rintro rfl
    cases final
    cases idle
  refine ⟨n + 1, by omega, by omega, fun k h1 hk => ?_, t, (runTicks_succ n (step_accept ha)).trans final, idle, outcome⟩
  obtain ⟨k, rfl⟩ := Nat.exists_eq_add_of_le' h1
  rw [runTicks_succ k (step_accept ha)]
  exact during k (by omega)

end Sys2Proof.Machine
end
